-- ==== Sys2Proof/Word.lean ====
section
/-! DEFINITION. The widths of this block: `u8`, `u32`, `u64` of 00_scope.md R5. Unsigned values; all arithmetic on
them wraps (40_primitives.md R60), which is what `BitVec` addition, subtraction and multiplication do. -/

namespace Sys2Proof

/-- `u8` (R5): one byte of the message buffer, the unit of addressing (20_memory.md R30). -/
abbrev U8 := BitVec 8

/-- `u32` (R5): command words, `LEN`, the registers of the 32-bit hash. -/
abbrev U32 := BitVec 32

/-- `u64` (R5): `SEED`, `RESULT`, the adapter's value, the registers of the 64-bit hash. -/
abbrev U64 := BitVec 64

end Sys2Proof
end

