-- ==== Sys2Proof/Syntax.lean ====
section
/-! DEFINITION. Everything that can be put to the block: the seven commands of 30_encoding.md R53, and the host's
accesses to the register space of 20_memory.md R31. -/

namespace Sys2Proof

/-- The commands of CHX-1, one constructor per row of opcode_table.json (R53). A command carries no operand (R52). -/
inductive Instr where
  /-- `HASH32` (41_hash32.md R88). -/
  | hash32
  /-- `HASH64` (42_hash64.md R100). -/
  | hash64
  /-- `HASH64S` (43_seeded.md R103). -/
  | hash64s
  /-- `AD.NEW` (44_adapter.md R105). -/
  | adNew
  /-- `AD.SEED` (44_adapter.md R106). -/
  | adSeed
  /-- `AD.FEED` (44_adapter.md R107). -/
  | adFeed
  /-- `AD.FIN` (44_adapter.md R109). -/
  | adFin
  deriving DecidableEq, Repr

/-- The widths an access on the 32-bit port (R31) can have (assumption log 13). -/
inductive Width where
  | byte
  | half
  | word
  deriving DecidableEq, Repr

/-- The width of an access in bytes. -/
def Width.bytes : Width → Nat
  | .byte => 1
  | .half => 2
  | .word => 4

/-- One host access to the register space: a byte offset from the block's base address (R31), a width and, for a
write, the data (a byte write uses `data[7:0]`, R36). -/
inductive Access where
  | read (off : Nat) (w : Width)
  | write (off : Nat) (w : Width) (data : U32)
  deriving DecidableEq, Repr

/-- One entry of the timeline of 20_memory.md R40: what happens to the block next (assumption log 1). -/
inductive Input where
  /-- The host's next access. -/
  | host (a : Access)
  /-- The reset of 70_reset_and_hazards.md R140. -/
  | reset
  /-- The engine gets its turn (R151: when it does is not specified). -/
  | engine
  deriving DecidableEq, Repr

end Sys2Proof
end

