-- ==== Sys2Proof/Decode.lean ====
section
/-! DEFINITION. The decoder of 30_encoding.md R51, total on all 2^32 words, and the encoder of R53. -/

namespace Sys2Proof

/-- Why a word is `Illegal` (R51, R54). Both raise the same fault, ILLEGAL_COMMAND (60_exceptions.md R122). -/
inductive DecodeError where
  /-- `RSV` (bits 31:8) is not 0. -/
  | reservedBits
  /-- `OP` (bits 7:0) is none of the seven opcodes. -/
  | unknownOpcode
  deriving DecidableEq, Repr

/-- `OP`, bits 7:0 of a command word (R50). -/
def opField (w : U32) : BitVec 8 := w.extractLsb' 0 8

/-- `RSV`, bits 31:8 of a command word (R50). -/
def rsvField (w : U32) : BitVec 24 := w.extractLsb' 8 24

/-- The opcode map of R53. -/
def decodeOp (op : BitVec 8) : Except DecodeError Instr :=
  if op = 0x01#8 then .ok .hash32
  else if op = 0x02#8 then .ok .hash64
  else if op = 0x03#8 then .ok .hash64s
  else if op = 0x08#8 then .ok .adNew
  else if op = 0x09#8 then .ok .adSeed
  else if op = 0x0A#8 then .ok .adFeed
  else if op = 0x0B#8 then .ok .adFin
  else .error .unknownOpcode

/-- `decode(w)` (R51): first the reserved bits, then the opcode. -/
def decodeWord (w : U32) : Except DecodeError Instr :=
  if rsvField w ≠ 0#24 then .error .reservedBits else decodeOp (opField w)

/-- The host's view of the decoder: an instruction of `nbits` bits given as a number, bit 0 least significant. A
command is one 32-bit word (R50), so more than 32 bits are no command. -/
def decodeTableWord (nbits w : Nat) : Option Instr :=
  if 32 < nbits then none
  else match decodeWord (BitVec.ofNat 32 (w % 2 ^ nbits)) with
    | .ok i => some i
    | .error _ => none

/-- The `OP` column of R53. -/
def encodeOp : Instr → BitVec 8
  | .hash32 => 0x01#8
  | .hash64 => 0x02#8
  | .hash64s => 0x03#8
  | .adNew => 0x08#8
  | .adSeed => 0x09#8
  | .adFeed => 0x0A#8
  | .adFin => 0x0B#8

/-- The command word of an instruction (R50, R53): `RSV = 0` above `OP`. -/
def encode (i : Instr) : U32 := 0#24 ++ encodeOp i

end Sys2Proof
end

