-- ==== Sys2Proof/Config.lean ====
section
/-! DEFINITION. What an implementation fixes (00_scope.md R4) and the values the spec leaves open. -/

namespace Sys2Proof

/-- The two implementation parameters (R4: "A model takes both as arguments"). They stand in State and no step
changes them, so a statement over every state is a statement over every parameter value (assumption log 3). -/
structure Params where
  /-- `BUF_BYTES`: capacity in bytes of the message buffer. -/
  bufBytes : Nat
  /-- `CHECKED`: true = a read outside the view raises BOUNDS, false = such a read is undefined behaviour. -/
  checked : Bool
  deriving DecidableEq, Repr

/-- The legal values of R4: `1024 <= BUF_BYTES <= 2^31`; both values of `CHECKED` are legal. -/
abbrev Params.legal (p : Params) : Prop := 1024 ≤ p.bufBytes ∧ p.bufBytes ≤ 2 ^ 31

/-- "value this spec takes" (R4): 4096 and checked. -/
def Params.running : Params := { bufBytes := 4096, checked := true }

/-- What a host read of an unwritten byte returns: "an unspecified value" (20_memory.md R37; U3: any value, drawn per
read). A free value without a body, indexed by State's counter `draws` (assumption log 7). -/
opaque Config.unwrittenByte : Nat → U8

/-- What `PEND` holds once a command has ended: unspecified (60_exceptions.md R125; U5: any value). A free value
without a body, indexed by State's counter `draws` (assumption log 5). -/
opaque Config.idlePend : Nat → U32

end Sys2Proof
end

