-- ==== Sys2Proof/Machine/State.lean ====
section
/-! DEFINITION. The state of one CHX block: 10_state.md R10 ("The complete state of one CHX block is the following, and
nothing else"), the two parameters of 00_scope.md R4, and the model's own three fields for the outside world. -/

namespace Sys2Proof.Machine

/-- The causes of an architectural fault (60_exceptions.md R120). These are TAKEN (a next state), not stops. -/
inductive FaultCause where
  /-- Code 1: a Byte View read with `offset + width > LEN` while `CHECKED = 1` (R121). -/
  | bounds
  /-- Code 2: the latched word is not one of the seven commands (R122). -/
  | illegalCommand
  /-- Code 3: a message-reading command with `LEN > BUF_BYTES` (R123). -/
  | lengthRange
  deriving DecidableEq, Repr

/-- Where the model has no next state. None of these is one of the three architectural faults, which are next states. -/
inductive Fault where
  /-- Raised by the Byte View: a command read `MSG[off]`, which nothing has written since reset. The spec: "A model
  should give a read of an unwritten byte no value (a model-level fault)" (20_memory.md R44, U2). Safe: the hardware
  goes on with an unspecified digest, and nothing can be proved past this point (assumption log 6). -/
  | unwrittenByte (off : Nat)
  /-- Raised by the Byte View with `CHECKED = 0`: a read of `width` bytes at `off` passes `LEN`. The spec: "undefined
  behavior, not a recoverable error" (R43, U1: stuck). Safe (assumption log 8); R39 says that no command does it. -/
  | uncheckedRead (off width : Nat)
  deriving DecidableEq, Repr

/-- What the model does not accept. -/
inductive Refusal where
  /-- Raised by exec's arm of an instruction that has no meaning yet (there is none). Safe. -/
  | notModelled (mnemonic : String)
  /-- Raised by the host port: a narrow or misaligned access to a register, or an access of the window that is neither
  a byte nor an aligned word. Left out of the spec, "a model refuses it" (20_memory.md R34, U6). Safe
  (assumption log 9). -/
  | accessForm (off : Nat) (w : Width)
  /-- Raised by the host port: an access that passes the end of the message window. "Outside the block: refuse"
  (R31, R36, U7). Safe (assumption logs 9, 18). -/
  | outsideBlock (off : Nat) (w : Width)
  deriving DecidableEq, Repr

/-- The message buffer: one entry per WRITTEN byte, by offset. An offset that is not listed is *unwritten* and has no
value (10_state.md R26, 20_memory.md R44). -/
abbrev Memory := List Host.Cell

/-- The canonical form: offsets strictly rising. An unlisted byte has no value, so no entry can equal it. -/
def Memory.wf : Memory → Bool
  | [] => true
  | [_] => true
  | (a, _) :: (b, y) :: rest => decide (a < b) && Memory.wf ((b, y) :: rest)

/-- One block (assumption log 15). The working registers, `pos` and `iters` are local values of the digest functions, as R23 says
(assumption log 10); `STATUS` is computed from the flags and `AD` (`State.status`, R17). -/
structure State where
  /-- `BUF_BYTES` and `CHECKED` (R4); no step changes them (assumption log 3). -/
  params : Params
  /-- `MSG` (R26). -/
  msg : Memory
  /-- `LEN` (R11). -/
  len : U32
  /-- `SEED`, `SEED_HI` above `SEED_LO` (R12). -/
  seed : U64
  /-- `RESULT`, `RESULT_HI` above `RESULT_LO` (R13). -/
  result : U64
  /-- `AD`: `None` or `Some(v)` (R14; assumption log 11). -/
  ad : Option U64
  /-- `STATUS.BUSY` (R18). -/
  busy : Bool
  /-- `STATUS.FAULT` (R19). -/
  fault : Bool
  /-- `STATUS.FCODE` (R20). -/
  fcode : BitVec 4
  /-- `PEND` (R25). -/
  pend : U32
  /-- The model's own: what is still to happen at the block, the next one first (assumption log 1). -/
  inputs : List Input
  /-- The model's own: what the host's reads have returned, the newest first (assumption log 2). -/
  outputs : List U32
  /-- The model's own: the index of the next free value (assumption log 5). -/
  draws : Nat
  deriving DecidableEq, Repr

/-- The block right after reset, for any parameter values (70_reset_and_hazards.md R141, R142). `pend` is left open by
the spec: 0 is a DESIGN CHOICE (assumption log 4); so are the model's own three fields (assumption log 5). -/
def State.resetWith (p : Params) : State where
  params := p
  msg := []
  len := 0x00000000#32
  seed := 0x0000000000000000#64
  result := 0x0000000000000000#64
  ad := none
  busy := false
  fault := false
  fcode := 0x0#4
  pend := 0x00000000#32
  inputs := []
  outputs := []
  draws := 0

/-- The block right after reset, with the spec's running parameter values (R4, R141, R142). -/
def State.reset : State := State.resetWith Params.running

end Sys2Proof.Machine
end

