-- ==== Sys2Proof/Machine/Ops.lean ====
section
/-! DEFINITION. The shared operations over State: reading and writing the message buffer, ending a command, raising a
fault, leaving the fault state by reset, issuing a command. -/

namespace Sys2Proof.Machine

/-- `MSG[a]`: its value, or nothing while it is unwritten (10_state.md R26). -/
def Memory.read : Memory → Nat → Option U8
  | [], _ => none
  | (b, y) :: rest, a => if a = b then some y else Memory.read rest a

/-- `MSG[a] <- x` (20_memory.md R36): the byte becomes written. Keeps the offsets rising. -/
def Memory.write : Memory → Nat → U8 → Memory
  | [], a, x => [(a, x)]
  | (b, y) :: rest, a, x =>
    if a < b then (a, x) :: (b, y) :: rest
    else if a = b then (a, x) :: rest
    else (b, y) :: Memory.write rest a x

/-- `MemWrite(i, 4, d)` (R36): `MSG[i+k] <- d[8k+7 : 8k]` for `k = 0..3`. -/
def Memory.writeWord (m : Memory) (i : Nat) (d : U32) : Memory :=
  (((m.write i (d.extractLsb' 0 8)).write (i + 1) (d.extractLsb' 8 8)).write (i + 2) (d.extractLsb' 16 8)).write
    (i + 3) (d.extractLsb' 24 8)

/-- `RESULT <- v` (R13). -/
def State.setResult (s : State) (v : U64) : State := { s with result := v }

/-- `AD <- v` (R14). -/
def State.setAd (s : State) (v : Option U64) : State := { s with ad := v }

/-- The timeline after its first entry has been taken. -/
def State.withInputs (s : State) (xs : List Input) : State := { s with inputs := xs }

/-- The end of a command, completed or faulted: `STATUS.BUSY <- 0` (30_encoding.md R56). `PEND` is "meaningful only
while BUSY = 1" (R25) and unspecified from here on: a free value (U5; assumption log 5). -/
def State.retire (s : State) : State :=
  { s with busy := false, pend := Config.idlePend s.draws, draws := s.draws + 1 }

/-- The `FCODE` of a cause (60_exceptions.md R120). -/
def FaultCause.code : FaultCause → BitVec 4
  | .bounds => 1#4
  | .illegalCommand => 2#4
  | .lengthRange => 3#4

/-- `raise Fault(code)` (R125): `FAULT <- 1`, `FCODE <- code`, `BUSY <- 0`, and nothing else that the spec defines. -/
def State.raiseFault (s : State) (c : FaultCause) : State :=
  { s.retire with fault := true, fcode := c.code }

/-- The reset (70_reset_and_hazards.md R140, R143), the only way out of the fault state (R127): the block's state is that
of R141 and R142; its parameters, and the model's own fields, are not the block's and stay (assumption
log 16). -/
def State.applyReset (s : State) : State :=
  { State.resetWith s.params with inputs := s.inputs, outputs := s.outputs, draws := s.draws }

/-- `issue(w)` (30_encoding.md R55): no decoding and no check; dropped in the fault state. -/
def State.issue (s : State) (w : U32) : State :=
  if s.fault then s else { s with pend := w, busy := true }

end Sys2Proof.Machine
end

