-- ==== Sys2Proof/Machine/Operands.lean ====
section
/-! DEFINITION. The operands of a command: all implicit (30_encoding.md R52). The message is read through the Byte View
(20_memory.md R32 to R35), a pair of buffer and length with bounds-checked little-endian reads. -/

namespace Sys2Proof.Machine

/-- How a computation over the message can end early. -/
inductive Halt where
  /-- `raise Fault(c)`: the command is abandoned and the fault taken (60_exceptions.md R125). -/
  | raised (c : FaultCause)
  /-- The model has no next state. -/
  | stuck (r : Fault)
  deriving DecidableEq, Repr

/-- The Byte View (00_scope.md R9): the buffer, its length `n` (the value of `LEN` at issue) and the access
discipline (R4). -/
structure View where
  msg : Memory
  n : Nat
  checked : Bool
  deriving DecidableEq, Repr

/-- The view a command computes over: `LEN` as an unsigned integer (R52). -/
def State.view (s : State) : View :=
  { msg := s.msg, n := s.len.toNat, checked := s.params.checked }

/-- The precondition of `MemRead(o, w)`: "offset + width <= length", computed without wrap (R32). -/
def View.bound (v : View) (o w : Nat) : Except Halt Unit :=
  if v.n < o + w then
    if v.checked then .error (.raised .bounds) else .error (.stuck (.uncheckedRead o w))
  else .ok ()

/-- One byte of the buffer; an unwritten byte has no value (R44). -/
def View.cell (v : View) (a : Nat) : Except Halt U8 :=
  match v.msg.read a with
  | some x => .ok x
  | none => .error (.stuck (.unwrittenByte a))

/-- `Byte(o) = MemRead(o, 1)` (R32). -/
def View.byte (v : View) (o : Nat) : Except Halt U8 := do
  v.bound o 1
  v.cell o

/-- `Fetch32(o) = MemRead(o, 4)` (R32, R33): the byte at the lowest offset is the least significant. -/
def View.fetch32 (v : View) (o : Nat) : Except Halt U32 := do
  v.bound o 4
  let b0 ← v.cell o
  let b1 ← v.cell (o + 1)
  let b2 ← v.cell (o + 2)
  let b3 ← v.cell (o + 3)
  return b3 ++ b2 ++ b1 ++ b0

/-- `Fetch64(o) = MemRead(o, 8)` (R32, R33). -/
def View.fetch64 (v : View) (o : Nat) : Except Halt U64 := do
  v.bound o 8
  let b0 ← v.cell o
  let b1 ← v.cell (o + 1)
  let b2 ← v.cell (o + 2)
  let b3 ← v.cell (o + 3)
  let b4 ← v.cell (o + 4)
  let b5 ← v.cell (o + 5)
  let b6 ← v.cell (o + 6)
  let b7 ← v.cell (o + 7)
  return b7 ++ b6 ++ b5 ++ b4 ++ b3 ++ b2 ++ b1 ++ b0

/-- A message-reading command (30_encoding.md R56): LENGTH_RANGE first (60_exceptions.md R123, R126), then the
computation over the view, then `commit` as the command's last action; a fault in the computation commits nothing
(R125). `BUSY` is cleared whichever way it ends. -/
def messageCommand {α : Type} (compute : View → Except Halt α) (commit : α → State → State) (s : State) :
    Host.Outcome State Fault Refusal :=
  if s.params.bufBytes < s.len.toNat then .next (s.raiseFault .lengthRange)
  else match compute s.view with
    | .ok x => .next (commit x s).retire
    | .error (.raised c) => .next (s.raiseFault c)
    | .error (.stuck r) => .fault r

/-- A command that looks at neither `LEN` nor `MSG` (30_encoding.md R56). -/
def plainCommand (commit : State → State) (s : State) : Host.Outcome State Fault Refusal :=
  .next (commit s).retire

end Sys2Proof.Machine
end

