-- ==== Sys2Proof/Machine/Primitives.lean ====
section
/-! DEFINITION. The mixing primitives of 40_primitives.md (R60 to R76 but for `weak_hash_at`, which reads the message):
pure functions, no flag, no fault. -/

namespace Sys2Proof.Machine

/-- `K0` (R63; value from general knowledge, assumption log 14). -/
def K0 : U64 := 0xc3a5c85c97cb3127#64
/-- `K1` (R63; value from general knowledge, assumption log 14). -/
def K1 : U64 := 0xb492b66fbe98f273#64
/-- `K2` (R63). -/
def K2 : U64 := 0x9ae16a3b2f90404f#64
/-- `C1` (R63). -/
def C1 : U32 := 0xcc9e2d51#32
/-- `C2` (R63). -/
def C2 : U32 := 0x1b873593#32
/-- `KMUL` (R63). -/
def KMUL : U64 := 0x9ddfea08eb382d69#64
/-- `MADD` (R63). -/
def MADD : U32 := 0xe6546b64#32
/-- `FM1` (R63). -/
def FM1 : U32 := 0x85ebca6b#32
/-- `FM2` (R63). -/
def FM2 : U32 := 0xc2b2ae35#32

/-- `ror32(v, r)` (R64): rotate right; `r = 0` is the identity. -/
def ror32 (v : U32) (r : Nat) : U32 :=
  if r = 0 then v else (v >>> r) ||| (v <<< (32 - r))

/-- `ror64(v, r)` (R65): rotate right; `r = 0` is the identity. -/
def ror64 (v : U64) (r : Nat) : U64 :=
  if r = 0 then v else (v >>> r) ||| (v <<< (64 - r))

/-- `bswap32(v)` (R66): byte reversal. -/
def bswap32 (v : U32) : U32 :=
  v.extractLsb' 0 8 ++ v.extractLsb' 8 8 ++ v.extractLsb' 16 8 ++ v.extractLsb' 24 8

/-- `bswap64(v)` (R66): byte reversal. -/
def bswap64 (v : U64) : U64 :=
  v.extractLsb' 0 8 ++ v.extractLsb' 8 8 ++ v.extractLsb' 16 8 ++ v.extractLsb' 24 8 ++
    v.extractLsb' 32 8 ++ v.extractLsb' 40 8 ++ v.extractLsb' 48 8 ++ v.extractLsb' 56 8

/-- `fmix32(h)` (R67): the avalanche finalizer, three xor-shifts with two multiplies between them. -/
def fmix32 (h : U32) : U32 :=
  let h := h ^^^ (h >>> 16)
  let h := h * FM1
  let h := h ^^^ (h >>> 13)
  let h := h * FM2
  h ^^^ (h >>> 16)

/-- `premix32(x)` (R69): the data half of `mur`. -/
def premix32 (x : U32) : U32 := ror32 (x * C1) 17 * C2

/-- `step32(h)` (R70): the state half of `mur`. -/
def step32 (h : U32) : U32 := ror32 h 19 * 5#32 + MADD

/-- `mur(a, h)` (R68): both rotations are to the right (90_conflicts.md C1). -/
def mur (a h : U32) : U32 :=
  let a := a * C1
  let a := ror32 a 17
  let a := a * C2
  let h := h ^^^ a
  let h := ror32 h 19
  h * 5#32 + MADD

/-- `permute3(a, b, c)` (R71): swap `a` and `b`, then `a` and `c`; the values on exit. -/
def permute3 {α : Type} (a b c : α) : α × α × α := (c, a, b)

/-- `shift_mix64(v)` (R72). -/
def shiftMix64 (v : U64) : U64 := v ^^^ (v >>> 47)

/-- `hash_len_16_with_mul(u, v, mul)` (R73). -/
def hashLen16WithMul (u v mul : U64) : U64 :=
  let a := (u ^^^ v) * mul
  let a := a ^^^ (a >>> 47)
  let b := (v ^^^ a) * mul
  let b := b ^^^ (b >>> 47)
  b * mul

/-- `hash_len_16(u, v)` (R74). -/
def hashLen16 (u v : U64) : U64 := hashLen16WithMul u v KMUL

/-- `weak_hash_len_32_with_seeds(w, x, y, z, a, b)` (R75). -/
def weakHashLen32WithSeeds (w x y z a b : U64) : U64 × U64 :=
  let a := a + w
  let b := ror64 (b + a + z) 21
  let c := a
  let a := a + x
  let a := a + y
  let b := b + ror64 a 44
  (a + z, b + c)

end Sys2Proof.Machine
end

