-- ==== Sys2Proof/Machine/Hash64.lean ====
section
/-! DEFINITION. The 64-bit hash and the command HASH64 (42_hash64.md R90 to R100). Offsets are unsigned integers without
wrap (20_memory.md R38); data is 64 bits wide and wraps. -/

namespace Sys2Proof.Machine

/-- `zext_64(LEN)`: the length as 64-bit data. -/
def View.n64 (v : View) : U64 := BitVec.ofNat 64 v.n

/-- The length-derived multiplier `K2 + 2n` of R92, R94, R95, R96. -/
def View.mul64 (v : View) : U64 := K2 + v.n64 * 2#64

/-- `hash64_len_8_to_16` (R92). -/
def hash64Len8To16 (v : View) : Except Halt U64 := do
  let mul := v.mul64
  let a := (← v.fetch64 0) + K2
  let b ← v.fetch64 (v.n - 8)
  let c := ror64 b 37 * mul + a
  let d := (ror64 a 25 + b) * mul
  return hashLen16WithMul c d mul

/-- `hash64_len_1_to_3` (R93): 32-bit arithmetic first, bytes zero-extended. -/
def hash64Len1To3 (v : View) : Except Halt U64 := do
  let a ← v.byte 0
  let b ← v.byte (v.n >>> 1)
  let c ← v.byte (v.n - 1)
  let y : U32 := a.setWidth 32 + (b.setWidth 32 <<< 8)
  let z : U32 := BitVec.ofNat 32 v.n + (c.setWidth 32 <<< 2)
  return shiftMix64 ((y.setWidth 64 * K2) ^^^ (z.setWidth 64 * K0)) * K2

/-- `hash64_len_4_to_7` (R94). -/
def hash64Len4To7 (v : View) : Except Halt U64 := do
  let mul := v.mul64
  let a : U64 := (← v.fetch32 0).setWidth 64
  let b : U64 := (← v.fetch32 (v.n - 4)).setWidth 64
  return hashLen16WithMul (v.n64 + (a <<< 3)) b mul

/-- `hash64_len_0_to_16` (R91): the tests in this order; `n = 0` reads nothing and gives `K2`. -/
def hash64Len0To16 (v : View) : Except Halt U64 :=
  if 8 ≤ v.n then hash64Len8To16 v
  else if 4 ≤ v.n then hash64Len4To7 v
  else if 0 < v.n then hash64Len1To3 v
  else .ok K2

/-- `hash64_len_17_to_32` (R95). -/
def hash64Len17To32 (v : View) : Except Halt U64 := do
  let mul := v.mul64
  let a := (← v.fetch64 0) * K1
  let b ← v.fetch64 8
  let c := (← v.fetch64 (v.n - 8)) * mul
  let d := (← v.fetch64 (v.n - 16)) * K2
  return hashLen16WithMul (ror64 (a + b) 43 + ror64 c 30 + d) (a + ror64 (b + K2) 18 + c) mul

/-- The arithmetic of the 33..64 bucket (R96) over the eight words read, in the rule's own names. -/
def mix33To64 (mul r0 r8 r16 r24 t24 t32 t8 t16 : U64) : U64 :=
  let a := r0 * K2
  let b := r8
  let c := t24
  let d := t32
  let e := r16 * K2
  let f := r24 * 9#64
  let g := t8
  let h := t16 * mul
  let u := ror64 (a + g) 43 + (ror64 b 30 + c) * 9#64
  let v := ((a + g) ^^^ d) + f + 1#64
  let w := bswap64 ((u + v) * mul) + h
  let x := ror64 (e + f) 42 + c
  let y := (bswap64 ((v + w) * mul) + g) * mul
  let z := e + f + c
  let a := bswap64 ((x + z) * mul + y) + b
  let b := shiftMix64 ((z + a) * mul + d + h) * mul
  b + x

/-- `hash64_len_33_to_64` (R96). -/
def hash64Len33To64 (v : View) : Except Halt U64 := do
  let r0 ← v.fetch64 0
  let r8 ← v.fetch64 8
  let t24 ← v.fetch64 (v.n - 24)
  let t32 ← v.fetch64 (v.n - 32)
  let r16 ← v.fetch64 16
  let r24 ← v.fetch64 24
  let t8 ← v.fetch64 (v.n - 8)
  let t16 ← v.fetch64 (v.n - 16)
  return mix33To64 v.mul64 r0 r8 r16 r24 t24 t32 t8 t16

/-- `weak_hash_at(p, a, b)` (40_primitives.md R76): the weak hash of the 32 message bytes at `p`. -/
def View.weakHashAt (v : View) (p : Nat) (a b : U64) : Except Halt (U64 × U64) := do
  let w ← v.fetch64 p
  let x ← v.fetch64 (p + 8)
  let y ← v.fetch64 (p + 16)
  let z ← v.fetch64 (p + 24)
  return weakHashLen32WithSeeds w x y z a b

/-- The rolling state of the long bucket: `x, y, z` and the pairs `v`, `w`. -/
structure Regs64 where
  x : U64
  y : U64
  z : U64
  v : U64 × U64
  w : U64 × U64
  deriving DecidableEq, Repr

/-- `hash64_long`, phase 1 (R97): tail-anchored; `x*K1 + Fetch64(0)` (90_conflicts.md C6). -/
def hash64Tail (m : View) : Except Halt Regs64 := do
  let x ← m.fetch64 (m.n - 40)
  let y := (← m.fetch64 (m.n - 16)) + (← m.fetch64 (m.n - 56))
  let z := hashLen16 ((← m.fetch64 (m.n - 48)) + m.n64) (← m.fetch64 (m.n - 24))
  let v ← m.weakHashAt (m.n - 64) m.n64 z
  let w ← m.weakHashAt (m.n - 32) (y + K1) x
  let x := x * K1 + (← m.fetch64 0)
  return { x := x, y := y, z := z, v := v, w := w }

/-- The body of the chunk loop (R98) at `pos`; each line uses the values current when it is reached. -/
def chunk64 (m : View) (pos : Nat) (r : Regs64) : Except Halt Regs64 := do
  let x := ror64 (r.x + r.y + r.v.1 + (← m.fetch64 (pos + 8))) 37 * K1
  let y := ror64 (r.y + r.v.2 + (← m.fetch64 (pos + 48))) 42 * K1
  let x := x ^^^ r.w.2
  let y := y + r.v.1 + (← m.fetch64 (pos + 40))
  let z := ror64 (r.z + r.w.1) 33 * K1
  let v ← m.weakHashAt pos (r.v.2 * K1) (x + r.w.1)
  let w ← m.weakHashAt (pos + 32) (z + r.w.2) (y + (← m.fetch64 (pos + 16)))
  return { x := z, y := y, z := x, v := v, w := w }

/-- `hash64_long`, phase 2 (R98): `iters` chunks of 64 bytes from `pos` on (10_state.md R24). -/
def hash64Loop (m : View) : (iters pos : Nat) → Regs64 → Except Halt Regs64
  | 0, _, r => .ok r
  | iters + 1, pos, r => do
    let r ← chunk64 m pos r
    hash64Loop m iters (pos + 64) r

/-- `hash64_long`, phase 3 (R99). -/
def finish64 (r : Regs64) : U64 :=
  hashLen16 (hashLen16 r.v.1 r.w.1 + shiftMix64 r.y * K1 + r.z) (hashLen16 r.v.2 r.w.2 + r.x)

/-- `hash64_long` (R97, R98, R99): the tail first, then the chunks from the front (70_reset_and_hazards.md R150). -/
def hash64Long (m : View) : Except Halt U64 := do
  let r ← hash64Tail m
  let r ← hash64Loop m ((m.n - 1) / 64) 0 r
  return finish64 r

/-- `hash64(n)` of the spec (R90): the dispatcher. -/
def digest64 (v : View) : Except Halt U64 :=
  if v.n ≤ 16 then hash64Len0To16 v
  else if v.n ≤ 32 then hash64Len17To32 v
  else if v.n ≤ 64 then hash64Len33To64 v
  else hash64Long v

/-- `HASH64` (R100): `RESULT <- hash64(n)`. -/
def execHash64 (s : State) : Host.Outcome State Fault Refusal :=
  messageCommand digest64 (fun d s => s.setResult d) s

end Sys2Proof.Machine
end

