-- ==== Sys2Proof/Machine/Seeded.lean ====
section
/-! DEFINITION. The seeded 64-bit variant and the command HASH64S (43_seeded.md R102, R103). -/

namespace Sys2Proof.Machine

/-- The derivation step of R102: `hash_len_16(d - K2, seed)`; the subtraction wraps, the digest is the first operand. -/
def seedDigest (d seed : U64) : U64 := hashLen16 (d - K2) seed

/-- `hash64_seeded(n, seed)` (R102): the whole unseeded dispatch, then the one combine. -/
def hash64Seeded (seed : U64) (v : View) : Except Halt U64 := do
  let d ← digest64 v
  return seedDigest d seed

/-- `HASH64S` (R103): `RESULT <- hash64_seeded(n, SEED)`. -/
def execHash64s (s : State) : Host.Outcome State Fault Refusal :=
  messageCommand (hash64Seeded s.seed) (fun d s => s.setResult d) s

end Sys2Proof.Machine
end

