-- ==== Sys2Proof/Machine/Adapter.lean ====
section
/-! DEFINITION. The incremental hasher adapter: AD.NEW, AD.SEED, AD.FEED, AD.FIN (44_adapter.md R105 to R110). -/

namespace Sys2Proof.Machine

/-- `AD.NEW` (R105): `AD <- None`. -/
def execAdNew (s : State) : Host.Outcome State Fault Refusal :=
  plainCommand (fun s => s.setAd none) s

/-- `AD.SEED` (R106): `AD <- Some(SEED)`; a seed of 0 gives `Some(0)`, not `None`. -/
def execAdSeed (s : State) : Host.Outcome State Fault Refusal :=
  plainCommand (fun s => s.setAd (some s.seed)) s

/-- The digest a feed computes (R107): unseeded from `None`, seeded by the held value from `Some`. -/
def feedDigest (ad : Option U64) (v : View) : Except Halt U64 :=
  match ad with
  | none => digest64 v
  | some k => hash64Seeded k v

/-- `AD.FEED` (R107): the digest replaces the state (R108); `RESULT` is not written and `SEED` is not read. -/
def execAdFeed (s : State) : Host.Outcome State Fault Refusal :=
  messageCommand (feedDigest s.ad) (fun d s => s.setAd (some d)) s

/-- What `finalize` returns (R109): the held value, or 0 from `None`. -/
def heldValue : Option U64 → U64
  | none => 0x0000000000000000#64
  | some v => v

/-- `AD.FIN` (R109): `RESULT <-` the held value; `AD` is not consumed. -/
def execAdFin (s : State) : Host.Outcome State Fault Refusal :=
  plainCommand (fun s => s.setResult (heldValue s.ad)) s

end Sys2Proof.Machine
end

