-- ==== Sys2Proof/Machine/Hash32.lean ====
section
/-! DEFINITION. The 32-bit hash and the command HASH32 (41_hash32.md R80 to R88). Offsets are unsigned integers without
wrap (20_memory.md R38); data is 32 bits wide and wraps. -/

namespace Sys2Proof.Machine

/-- The length as 32-bit data (R81). -/
def View.n32 (v : View) : U32 := BitVec.ofNat 32 v.n

/-- One byte of the 0..4 bucket (R82): sign-extended, `b = b*C1 + v`, then the NEW `b` into `c`. -/
def foldByte32 (b c : U32) (x : U8) : U32 × U32 :=
  let b := b * C1 + x.signExtend 32
  (b, c ^^^ b)

/-- The byte loop of the 0..4 bucket (R82): `k` bytes from offset `i` on, in increasing order. -/
def foldBytes32 (v : View) : Nat → Nat → U32 → U32 → Except Halt (U32 × U32)
  | 0, _, b, c => .ok (b, c)
  | k + 1, i, b, c => do
    let x ← v.byte i
    let (b, c) := foldByte32 b c x
    foldBytes32 v k (i + 1) b c

/-- `hash32_len_0_to_4` (R82). -/
def hash32Len0To4 (v : View) : Except Halt U32 := do
  let (b, c) ← foldBytes32 v v.n 0 0#32 9#32
  return fmix32 (mur b (mur v.n32 c))

/-- `hash32_len_5_to_12` (R83). -/
def hash32Len5To12 (v : View) : Except Halt U32 := do
  let d := v.n32 * 5#32
  let a := v.n32 + (← v.fetch32 0)
  let b := v.n32 * 5#32 + (← v.fetch32 (v.n - 4))
  let c := 9#32 + (← v.fetch32 ((v.n >>> 1) &&& 4))
  return fmix32 (mur c (mur b (mur a d)))

/-- `hash32_len_13_to_24` (R84): six `mur` calls (90_conflicts.md C3). -/
def hash32Len13To24 (v : View) : Except Halt U32 := do
  let a ← v.fetch32 ((v.n >>> 1) - 4)
  let b ← v.fetch32 4
  let c ← v.fetch32 (v.n - 8)
  let d ← v.fetch32 (v.n >>> 1)
  let e ← v.fetch32 0
  let f ← v.fetch32 (v.n - 4)
  let h := v.n32
  return fmix32 (mur f (mur e (mur d (mur c (mur b (mur a h))))))

/-- The three working registers of the long bucket. -/
structure Regs32 where
  h : U32
  g : U32
  f : U32
  deriving DecidableEq, Repr

/-- The tail fold of the long bucket (R85) over the five words read near the tail. -/
def tailFold32 (n r0 r1 r2 r3 r4 : U32) : Regs32 :=
  let h := n
  let g := C1 * n
  let f := g
  let a0 := premix32 r0
  let a1 := premix32 r1
  let a2 := premix32 r2
  let a3 := premix32 r3
  let a4 := premix32 r4
  let h := step32 (h ^^^ a0)
  let h := step32 (h ^^^ a2)
  let g := step32 (g ^^^ a1)
  let g := step32 (g ^^^ a3)
  let f := step32 (f + a4)
  { h := h, g := g, f := f }

/-- `hash32_long`, phase 1 (R85). -/
def hash32Tail (v : View) : Except Halt Regs32 := do
  let r0 ← v.fetch32 (v.n - 4)
  let r1 ← v.fetch32 (v.n - 8)
  let r2 ← v.fetch32 (v.n - 16)
  let r3 ← v.fetch32 (v.n - 12)
  let r4 ← v.fetch32 (v.n - 20)
  return tailFold32 v.n32 r0 r1 r2 r3 r4

/-- The body of the chunk loop (R86) over the five words of the chunk; `a1` and `a4` are not pre-mixed. -/
def chunk32 (r : Regs32) (r0 r1 r2 r3 r4 : U32) : Regs32 :=
  let a0 := premix32 r0
  let a1 := r1
  let a2 := premix32 r2
  let a3 := premix32 r3
  let a4 := r4
  let h := r.h ^^^ a0
  let h := ror32 h 18
  let h := h * 5#32 + MADD
  let f := r.f + a1
  let f := ror32 f 19
  let f := f * C1
  let g := r.g + a2
  let g := ror32 g 18
  let g := g * 5#32 + MADD
  let h := h ^^^ (a3 + a1)
  let h := ror32 h 19
  let h := h * 5#32 + MADD
  let g := g ^^^ a4
  let g := bswap32 g * 5#32
  let h := h + a4 * 5#32
  let h := bswap32 h
  let f := f + a0
  let (f, h, g) := permute3 f h g
  { h := h, g := g, f := f }

/-- `hash32_long`, phase 2 (R86): `iters` chunks of 20 bytes from `pos` on (10_state.md R24). -/
def hash32Loop (v : View) : (iters pos : Nat) → Regs32 → Except Halt Regs32
  | 0, _, r => .ok r
  | iters + 1, pos, r => do
    let r0 ← v.fetch32 pos
    let r1 ← v.fetch32 (pos + 4)
    let r2 ← v.fetch32 (pos + 8)
    let r3 ← v.fetch32 (pos + 12)
    let r4 ← v.fetch32 (pos + 16)
    hash32Loop v iters (pos + 20) (chunk32 r r0 r1 r2 r3 r4)

/-- `hash32_long`, phase 3 (R87); no `fmix32` here. -/
def finish32 (r : Regs32) : U32 :=
  let g := ror32 r.g 11 * C1
  let g := ror32 g 17 * C1
  let f := ror32 r.f 11 * C1
  let f := ror32 f 17 * C1
  let h := ror32 (r.h + g) 19
  let h := h * 5#32 + MADD
  let h := ror32 h 17 * C1
  let h := ror32 (h + f) 19
  let h := h * 5#32 + MADD
  ror32 h 17 * C1

/-- `hash32_long` (R85, R86, R87): the tail first, then the chunks from the front (70_reset_and_hazards.md R150). -/
def hash32Long (v : View) : Except Halt U32 := do
  let r ← hash32Tail v
  let r ← hash32Loop v ((v.n - 1) / 20) 0 r
  return finish32 r

/-- `hash32(n)` of the spec (R80): the dispatcher. -/
def digest32 (v : View) : Except Halt U32 :=
  if v.n ≤ 4 then hash32Len0To4 v
  else if v.n ≤ 12 then hash32Len5To12 v
  else if v.n ≤ 24 then hash32Len13To24 v
  else hash32Long v

/-- `HASH32` (R88): `RESULT <- zext_64(hash32(n))`. -/
def execHash32 (s : State) : Host.Outcome State Fault Refusal :=
  messageCommand digest32 (fun d s => s.setResult (d.setWidth 64)) s

end Sys2Proof.Machine
end

