-- ==== Sys2Proof/Machine/Dispatch.lean ====
section
/-! DEFINITION. One arm per command: the "perform" arms of 30_encoding.md R56. -/

namespace Sys2Proof.Machine

def exec (i : Instr) (s : State) : Host.Outcome State Fault Refusal :=
  match i with
  | .hash32 => Sys2Proof.Machine.execHash32 s
  | .hash64 => Sys2Proof.Machine.execHash64 s
  | .hash64s => Sys2Proof.Machine.execHash64s s
  | .adNew => Sys2Proof.Machine.execAdNew s
  | .adSeed => Sys2Proof.Machine.execAdSeed s
  | .adFeed => Sys2Proof.Machine.execAdFeed s
  | .adFin => Sys2Proof.Machine.execAdFin s

end Sys2Proof.Machine
end

