-- ==== Sys2Proof/Machine/Flags.lean ====
section
/-! DEFINITION. The `STATUS` register (10_state.md R17 to R21), computed from the flags and the adapter. There are no
condition codes: no command writes a flag other than those of `STATUS`. -/

namespace Sys2Proof.Machine

/-- A flag as one bit. -/
def bit (b : Bool) : BitVec 1 := if b then 1#1 else 0#1

/-- `STATUS.AD_VALID` mirrors the adapter's validity bit (R21). -/
def State.adValid (s : State) : Bool := s.ad.isSome

/-- `STATUS` as the host reads it (R17): bits 31:8 zero, `FCODE` in 7:4, bit 3 zero, `AD_VALID` in 2, `FAULT` in 1,
`BUSY` in 0. -/
def State.status (s : State) : U32 :=
  0#24 ++ s.fcode ++ 0#1 ++ bit s.adValid ++ bit s.fault ++ bit s.busy

end Sys2Proof.Machine
end

