-- ==== Sys2Proof/Machine/Port.lean ====
section
/-! DEFINITION. The host's side of the block: the register map (20_memory.md R31), access rights (10_state.md R27), the
message window (R36, R37). One host access is one step. -/

namespace Sys2Proof.Machine

/-- What an accepted access reaches (R31). -/
inductive Target where
  | cmd
  | status
  | len
  | seedLo
  | seedHi
  | resultLo
  | resultHi
  | reserved
  /-- `MSG[i]` and, for a word, the three bytes after it. -/
  | window (i : Nat)
  deriving DecidableEq, Repr

/-- The register at an aligned offset below 0x20 (R31); 0x000C is reserved. -/
def registerAt (off : Nat) : Target :=
  if off = 0x00 then .cmd
  else if off = 0x04 then .status
  else if off = 0x08 then .len
  else if off = 0x10 then .seedLo
  else if off = 0x14 then .seedHi
  else if off = 0x18 then .resultLo
  else if off = 0x1C then .resultHi
  else .reserved

/-- An access to the registers: aligned and 32 bits wide, or refused (R34, U6). -/
def registerTarget (off : Nat) (w : Width) : Except Refusal Target :=
  if w = .word ∧ off % 4 = 0 then .ok (registerAt off) else .error (.accessForm off w)

/-- An access to the message window: inside it (R36, U7), a byte anywhere or a word at a multiple of 4 (R36, U6). -/
def windowTarget (bufBytes off : Nat) (w : Width) : Except Refusal Target :=
  let i := off - 0x1000
  if bufBytes < i + w.bytes then .error (.outsideBlock off w)
  else if w = .byte ∨ (w = .word ∧ i % 4 = 0) then .ok (.window i)
  else .error (.accessForm off w)

/-- The host register map (R31). Reserved space takes any access that lies in it wholly (assumption log 12). -/
def target (bufBytes off : Nat) (w : Width) : Except Refusal Target :=
  if off < 0x20 then registerTarget off w
  else if off < 0x1000 then
    if off + w.bytes ≤ 0x1000 then .ok .reserved else .error (.accessForm off w)
  else windowTarget bufBytes off w

/-- `MSG[i+k]` as a host read sees it (R37): an unwritten byte returns a free value (U3; assumption log 7). -/
def State.windowByte (s : State) (i k : Nat) : U8 :=
  match s.msg.read (i + k) with
  | some x => x
  | none => Config.unwrittenByte (s.draws + k)

/-- What a read of the window returns (R37): the byte, zero-extended, or the four bytes little-endian. -/
def State.windowData (s : State) (i : Nat) : Width → U32
  | .word => s.windowByte i 3 ++ s.windowByte i 2 ++ s.windowByte i 1 ++ s.windowByte i 0
  | .byte | .half => (s.windowByte i 0).setWidth 32

/-- The value a host read returns (R27): 0 from `CMD`, the only write-only register, and from reserved offsets. -/
def State.readData (s : State) (w : Width) : Target → U32
  | .cmd => 0#32
  | .status => s.status
  | .len => s.len
  | .seedLo => s.seed.extractLsb' 0 32
  | .seedHi => s.seed.extractLsb' 32 32
  | .resultLo => s.result.extractLsb' 0 32
  | .resultHi => s.result.extractLsb' 32 32
  | .reserved => 0#32
  | .window i => s.windowData i w

/-- How many free values a read may have used: one per window byte (U3: drawn per read). -/
def Target.draws : Target → Nat
  | .window _ => 4
  | .cmd | .status | .len | .seedLo | .seedHi | .resultLo | .resultHi | .reserved => 0

/-- A host read: the value is returned to the host, and no state of the block changes (R35). -/
def State.hostRead (s : State) (w : Width) (t : Target) : State :=
  { s with outputs := s.readData w t :: s.outputs, draws := s.draws + t.draws }

/-- A host write to the window (R36): one byte `data[7:0]`, or four bytes little-endian. -/
def State.writeWindow (s : State) (i : Nat) (data : U32) : Width → State
  | .word => { s with msg := s.msg.writeWord i data }
  | .byte | .half => { s with msg := s.msg.write i (data.extractLsb' 0 8) }

/-- A host write (R27): `CMD` issues (R55), `LEN` and the halves of `SEED` are written (R11, R148), a write to a
read-only register or a reserved offset has no effect. -/
def State.hostWrite (s : State) (w : Width) (data : U32) : Target → State
  | .cmd => s.issue data
  | .status => s
  | .len => { s with len := data }
  | .seedLo => { s with seed := s.seed.extractLsb' 32 32 ++ data }
  | .seedHi => { s with seed := data ++ s.seed.extractLsb' 0 32 }
  | .resultLo => s
  | .resultHi => s
  | .reserved => s
  | .window i => s.writeWindow i data w

/-- One host access, accepted (R40(d)) or refused (R34, U6, U7). -/
def hostAccess (a : Access) (s : State) : Host.Outcome State Fault Refusal :=
  match a with
  | .read off w =>
    match target s.params.bufBytes off w with
    | .ok t => .next (s.hostRead w t)
    | .error r => .refused r
  | .write off w data =>
    match target s.params.bufBytes off w with
    | .ok t => .next (s.hostWrite w data t)
    | .error r => .refused r

/-- The one access that is accepted while the engine runs: an aligned 32-bit read of `STATUS` (70_reset_and_hazards.md
R146). -/
def isStatusRead : Access → Bool
  | .read off w => off == 0x04 && w == .word
  | .write _ _ _ => false

end Sys2Proof.Machine
end

