-- ==== Sys2Proof/Machine/Engine.lean ====
section
/-! DEFINITION. The engine's one step (30_encoding.md R56) and the interleaving of engine and host (20_memory.md R40,
70_reset_and_hazards.md R146). -/

namespace Sys2Proof.Machine

/-- `complete()` (R56): decode `PEND`; an illegal word raises ILLEGAL_COMMAND (60_exceptions.md R122), a command is
performed (assumption log 19). -/
def complete (s : State) : Host.Outcome State Fault Refusal :=
  match decodeWord s.pend with
  | .ok i => exec i s
  | .error _ => .next (s.raiseFault .illegalCommand)

/-- The engine's turn: completion is enabled exactly when `BUSY = 1` (R56); otherwise the engine waits (60_exceptions.md
R135; assumption log 20). -/
def engineTurn (s : State) : Host.Outcome State Fault Refusal :=
  if s.busy then complete s else .next s

/-- Whether a host access can be accepted now (R146). -/
def State.accepts (s : State) (a : Access) : Bool := !s.busy || isStatusRead a

/-- The first entry of the timeline decides who moves (R40): an accepted host access or a reset is taken off the
timeline; a held access stays on it while the engine completes (R146); with nothing to come the engine has its turn
(R151). -/
def nextStep (s : State) : Host.Outcome State Fault Refusal :=
  match s.inputs with
  | [] => engineTurn s
  | .engine :: rest => engineTurn (s.withInputs rest)
  | .reset :: rest => .next (s.withInputs rest).applyReset
  | .host a :: rest => if s.accepts a then hostAccess a (s.withInputs rest) else engineTurn s

/-- Whether the engine moves next when `BUSY = 1`. -/
def engineIsNext : List Input → Bool
  | [] => true
  | .engine :: _ => true
  | .reset :: _ => false
  | .host a :: _ => !isStatusRead a

/-- The state the engine's turn starts from: its own entry is off the timeline, a held access is not. -/
def State.takeTurn (s : State) : State :=
  match s.inputs with
  | .engine :: rest => s.withInputs rest
  | _ => s

/-- The block with the word `w` latched and the engine to move next: what an accepted write of `w` to `CMD` and the
engine's turn bring about (30_encoding.md R55; assumption log 17). -/
def State.latch (s : State) (w : U32) : State :=
  { s with
    pend := w
    busy := true
    inputs := if engineIsNext s.inputs then s.inputs else .engine :: s.inputs }

end Sys2Proof.Machine
end

