-- ==== Sys2Proof/Machine/Step.lean ====
section
/-! DEFINITION. One step of the block: one entry of the single timeline of 20_memory.md R40. -/

namespace Sys2Proof.Machine

/-- One step: a host access, a reset or an engine turn (R40, R146, R151). -/
def step (s : State) : Host.Outcome State Fault Refusal := nextStep s

/-- `s` with an instruction of `nbits` bits latched in `PEND`, where the engine's next step decodes it (30_encoding.md
R55, R56): the very next step performs exactly that command (assumption log 17). -/
def State.withFetchWord (s : State) (nbits w : Nat) : State := s.latch (BitVec.ofNat 32 (w % 2 ^ nbits))

end Sys2Proof.Machine
end

