-- ==== Sys2Proof/Machine/Macros.lean ====
section
/-! DEFINITION. The host macros of 30_encoding.md R58: each expands to host accesses of the register map and nothing
else. `DO` polls `STATUS` until `BUSY = 0`; how many polls see `BUSY = 1` is not specified (R151), so the number is an
argument, and the engine's turn stands where the last busy poll was. -/

namespace Sys2Proof.Machine

/-- `RESET`. -/
def macroReset : List Input := [.reset]

/-- The byte writes of `LOAD`: `bytes` to the window from offset `0x1000 + i` on. -/
def macroLoadBytes : Nat → List U8 → List Input
  | _, [] => []
  | i, b :: bs => .host (.write (0x1000 + i) .byte (b.setWidth 32)) :: macroLoadBytes (i + 1) bs

/-- `LOAD bytes`: the bytes, then `LEN`. -/
def macroLoad (bytes : List U8) : List Input :=
  macroLoadBytes 0 bytes ++ [.host (.write 0x0008 .word (BitVec.ofNat 32 bytes.length))]

/-- `SETSEED v`: the low half, then the high half. -/
def macroSetSeed (v : U64) : List Input :=
  [.host (.write 0x0010 .word (v.extractLsb' 0 32)), .host (.write 0x0014 .word (v.extractLsb' 32 32))]

/-- `DO mnemonic`: write the command's word to `CMD`, then read `STATUS` until `BUSY = 0`; `busyPolls` reads come before
the engine's turn. -/
def macroDo (i : Instr) (busyPolls : Nat) : List Input :=
  .host (.write 0x0000 .word (encode i)) ::
    (List.replicate busyPolls (.host (.read 0x0004 .word)) ++ [.engine, .host (.read 0x0004 .word)])

/-- `GET`: the low half, then the high half. -/
def macroGet : List Input := [.host (.read 0x0018 .word), .host (.read 0x001C .word)]

/-- `hash32 bytes`. -/
def macroHash32 (bytes : List U8) (busyPolls : Nat) : List Input :=
  macroLoad bytes ++ macroDo .hash32 busyPolls ++ macroGet

/-- `hash64 bytes`. -/
def macroHash64 (bytes : List U8) (busyPolls : Nat) : List Input :=
  macroLoad bytes ++ macroDo .hash64 busyPolls ++ macroGet

/-- `hash_with_seed bytes, v`. -/
def macroHashWithSeed (bytes : List U8) (v : U64) (busyPolls : Nat) : List Input :=
  macroLoad bytes ++ macroSetSeed v ++ macroDo .hash64s busyPolls ++ macroGet

/-- `feed bytes`. -/
def macroFeed (bytes : List U8) (busyPolls : Nat) : List Input :=
  macroLoad bytes ++ macroDo .adFeed busyPolls

/-- `finalize`. -/
def macroFinalize (busyPolls : Nat) : List Input := macroDo .adFin busyPolls ++ macroGet

end Sys2Proof.Machine
end

