-- ==== Sys2Proof/WellFormed.lean ====
section
/-! DEFINITION. Which terms of Syntax the spec accepts. A command has no operand, so every `Instr` is well formed
(30_encoding.md R52); a command WORD is well formed when its fields are (R50, R53); a host access is well formed when
20_memory.md R31, R34, R36 give it a meaning. -/

namespace Sys2Proof

/-- Every command is well formed: it carries no operand (R52). -/
def Instr.wellFormed (_ : Instr) : Bool := true

/-- A command word (R50): `RSV` is 0 and `OP` is one of the seven opcodes of R53. -/
def wordWellFormed (w : U32) : Bool :=
  (w.extractLsb' 8 24 == 0#24) &&
    [0x01#8, 0x02#8, 0x03#8, 0x08#8, 0x09#8, 0x0A#8, 0x0B#8].contains (w.extractLsb' 0 8)

/-- The offset and width of an access. -/
def Access.place : Access → Nat × Width
  | .read off w => (off, w)
  | .write off w _ => (off, w)

/-- A register (0x0000 to 0x001F) is reached by an aligned 32-bit access only (R31, R34). -/
def Access.inRegisters (off : Nat) (w : Width) : Bool := off < 0x20 && off % 4 == 0 && w == .word

/-- Reserved space 0x0020 .. 0x0FFF (R31): any access that lies in it wholly (assumption log 12). -/
def Access.inReserved (off : Nat) (w : Width) : Bool := 0x20 ≤ off && off + w.bytes ≤ 0x1000

/-- The message window (R31, R36): a byte anywhere in it, or a 32-bit word at a multiple of 4, not past its end. -/
def Access.inWindow (bufBytes off : Nat) (w : Width) : Bool :=
  0x1000 ≤ off && off + w.bytes ≤ 0x1000 + bufBytes && (w == .byte || (w == .word && (off - 0x1000) % 4 == 0))

/-- The host accesses that the spec gives a meaning to; a model refuses the others (R34, U6, U7). -/
def Access.wellFormed (p : Params) (a : Access) : Bool :=
  Access.inRegisters a.place.1 a.place.2 || Access.inReserved a.place.1 a.place.2 ||
    Access.inWindow p.bufBytes a.place.1 a.place.2

end Sys2Proof
end

