-- ==== Sys2Proof/Safety.lean ====
section
/-! DEFINITION. The terms in which claims speak: the invariant of the block, and the host's duties. -/

namespace Sys2Proof.Machine

/-- The value of `MSG[a]` while it is written, in the terms claims use. -/
abbrev State.byteAt (s : State) (a : Nat) : Option U8 := s.msg.read a

/-- The host's first two duties before a message-reading command (70_reset_and_hazards.md R144): `LEN <= BUF_BYTES`, and
the bytes below `LEN` are written, with the values `b`. -/
abbrev State.HoldsMessage (s : State) (b : Nat → U8) : Prop :=
  s.len.toNat ≤ s.params.bufBytes ∧ ∀ i, i < s.len.toNat → s.byteAt i = some (b i)

/-- Every listed byte lies in the buffer (10_state.md R26: index 0 to `BUF_BYTES - 1`). -/
abbrev State.msgInBuffer (s : State) : Prop := ∀ c ∈ s.msg, c.1 < s.params.bufBytes

/-- The codes `FCODE` can hold (60_exceptions.md R120): 0 with no fault, 1 to 3 with one; 4 to 15 never (U8). -/
abbrev State.fcodeLegal (s : State) : Prop :=
  if s.fault then s.fcode = 1#4 ∨ s.fcode = 2#4 ∨ s.fcode = 3#4 else s.fcode = 0#4

/-- What every state of a run satisfies: legal parameters (R4), a buffer in its canonical form and inside its capacity
(R26), a legal `FCODE` (R20, R120), and no command running in the fault state (R19, R127). -/
abbrev State.Inv (s : State) : Prop :=
  s.params.legal ∧ s.msg.wf = true ∧ s.msgInBuffer ∧ s.fcodeLegal ∧ (s.fault = true → s.busy = false)

/-- `t` is what a command that ended without a fault may leave of `s`: `BUSY` is 0, no flag of the fault state has changed,
and nothing that no command writes has changed (10_state.md R11, R12, R15; 20_memory.md R36). -/
abbrev State.CompletedFrom (t s : State) : Prop :=
  t.busy = false ∧ t.fault = s.fault ∧ t.fcode = s.fcode ∧ t.params = s.params ∧ t.msg = s.msg ∧ t.len = s.len ∧
    t.seed = s.seed ∧ t.inputs = s.inputs ∧ t.outputs = s.outputs

/-- The command rule being performed reads the message (30_encoding.md R56). -/
def readsMessage : Instr → Bool
  | .hash32 => true
  | .hash64 => true
  | .hash64s => true
  | .adNew => false
  | .adSeed => false
  | .adFeed => true
  | .adFin => false

/-- The commands that write `RESULT` (10_state.md R13, R15). -/
def writesResult : Instr → Bool
  | .hash32 => true
  | .hash64 => true
  | .hash64s => true
  | .adNew => false
  | .adSeed => false
  | .adFeed => false
  | .adFin => true

/-- The commands that write `AD` (10_state.md R14, R15). -/
def writesAdapter : Instr → Bool
  | .hash32 => false
  | .hash64 => false
  | .hash64s => false
  | .adNew => true
  | .adSeed => true
  | .adFeed => true
  | .adFin => false

/-- The message as the claims write its words: the four bytes from `o` on, little-endian (20_memory.md R33). -/
abbrev word32 (b : Nat → U8) (o : Nat) : U32 := b (o + 3) ++ b (o + 2) ++ b (o + 1) ++ b o

/-- The eight bytes from `o` on, little-endian (R33). -/
abbrev word64 (b : Nat → U8) (o : Nat) : U64 :=
  b (o + 7) ++ b (o + 6) ++ b (o + 5) ++ b (o + 4) ++ b (o + 3) ++ b (o + 2) ++ b (o + 1) ++ b o

end Sys2Proof.Machine
end

