-- ==== Sys2Proof/Certificates/Slice0/Obligations.lean ====
section
/-! DEFINITION. The statements for the provers. Each formalises rules of spec/ (named in its docstring). In them
`s.HoldsMessage b` says that the host has met its duties of 70_reset_and_hazards.md R144 with the message bytes `b`;
`word32 b o` and `word64 b o` are the little-endian words of the message at offset `o` (20_memory.md R33);
`t.CompletedFrom s` says that a command has ended without a fault and without touching what no command writes; `.retire`
is the end of a command in the model (`BUSY <- 0`; that `PEND` becomes a free value is the model's form of "unspecified",
assumption log 5). Host accesses, resets and engine turns are entries of the model's timeline (assumption log 1). -/

open Sys2Proof Sys2Proof.Machine

/-! ### Encoding (30_encoding.md R50 to R54) -/

/-- R51, R53: the seven words, written out bit by bit (`RSV` then `OP`), decode to the seven commands. -/
def Obligations.SevenWordsDecodeToTheSevenCommands : Prop :=
  decodeWord 0b000000000000000000000000_00000001#32 = .ok .hash32 ∧
  decodeWord 0b000000000000000000000000_00000010#32 = .ok .hash64 ∧
  decodeWord 0b000000000000000000000000_00000011#32 = .ok .hash64s ∧
  decodeWord 0b000000000000000000000000_00001000#32 = .ok .adNew ∧
  decodeWord 0b000000000000000000000000_00001001#32 = .ok .adSeed ∧
  decodeWord 0b000000000000000000000000_00001010#32 = .ok .adFeed ∧
  decodeWord 0b000000000000000000000000_00001011#32 = .ok .adFin

/-- R51, 95_test_vectors.md section 9: `decode(encode(c)) = c` for each command and `encode(decode(w)) = w` for each
legal word; so exactly seven words are commands. -/
def Obligations.DecodeAndEncodeAgree : Prop :=
  (∀ i : Instr, decodeTableWord 32 (encode i).toNat = some i) ∧
  ∀ (w : U32) (i : Instr), decodeWord w = .ok i ↔ w = encode i

/-- R51: `decode` is total on all 2^32 words: a nonzero `RSV` is illegal whatever `OP` is; with `RSV = 0` the seven opcodes
are the seven commands and every other opcode is illegal. -/
def Obligations.DecodingIsTotalAndAsTheMapSays : Prop :=
  ∀ w : U32,
    (w.extractLsb' 8 24 ≠ 0#24 → ∃ e, decodeWord w = .error e) ∧
    (w.extractLsb' 8 24 = 0#24 →
      let op := w.extractLsb' 0 8
      (op = 0x01#8 → decodeWord w = .ok .hash32) ∧ (op = 0x02#8 → decodeWord w = .ok .hash64) ∧
      (op = 0x03#8 → decodeWord w = .ok .hash64s) ∧ (op = 0x08#8 → decodeWord w = .ok .adNew) ∧
      (op = 0x09#8 → decodeWord w = .ok .adSeed) ∧ (op = 0x0A#8 → decodeWord w = .ok .adFeed) ∧
      (op = 0x0B#8 → decodeWord w = .ok .adFin) ∧
      (op ∉ [0x01#8, 0x02#8, 0x03#8, 0x08#8, 0x09#8, 0x0A#8, 0x0B#8] → ∃ e, decodeWord w = .error e))

/-! ### Issue, completion and the interlock (30_encoding.md R55, R56; 70_reset_and_hazards.md R146) -/

/-- R56: when the engine moves, the step performs the command that `PEND` decodes to; `takeTurn` only takes the engine's
own entry off the timeline. -/
def Obligations.StepRunsTheLatchedCommand : Prop :=
  ∀ (s : State) (i : Instr), s.busy = true → engineIsNext s.inputs = true → decodeWord s.pend = .ok i →
    step s = exec i s.takeTurn ∧ s.takeTurn = s.withInputs s.takeTurn.inputs ∧
      (s.takeTurn.inputs = s.inputs ∨ s.inputs = .engine :: s.takeTurn.inputs)

/-- R122: the completion of any word with a nonzero `RSV` or with `OP` outside the seven raises ILLEGAL_COMMAND, whatever
`LEN` is, and nothing of the block's data state changes. -/
def Obligations.IllegalWordTakesIllegalCommandFault : Prop :=
  ∀ s : State, s.busy = true → engineIsNext s.inputs = true →
    (s.pend.extractLsb' 8 24 ≠ 0#24 ∨
      s.pend.extractLsb' 0 8 ∉ [0x01#8, 0x02#8, 0x03#8, 0x08#8, 0x09#8, 0x0A#8, 0x0B#8]) →
    ∃ t, step s = .next t ∧ t.fault = true ∧ t.fcode = 2#4 ∧ t.busy = false ∧ t.result = s.result ∧ t.ad = s.ad ∧
      t.len = s.len ∧ t.seed = s.seed ∧ t.msg = s.msg ∧ t.params = s.params ∧ t.outputs = s.outputs

/-- R55: a write to `CMD` latches the word and sets `BUSY`, with no decoding and no check; in the fault state it has no
effect at all. -/
def Obligations.CommandWriteIssuesOrIsDropped : Prop :=
  ∀ (s : State) (w : U32) (rest : List Input), s.busy = false →
    (s.fault = false → step (s.withInputs (.host (.write 0x0000 .word w) :: rest)) =
      .next { s with pend := w, busy := true, inputs := rest }) ∧
    (s.fault = true → step (s.withInputs (.host (.write 0x0000 .word w) :: rest)) = .next (s.withInputs rest))

/-- R18, R55: only an issued command sets `BUSY`. -/
def Obligations.BusyIsSetOnlyByAnIssuedCommand : Prop :=
  ∀ s t : State, step s = .next t → s.busy = false → t.busy = true →
    s.fault = false ∧ ∃ w rest, s.inputs = .host (.write 0x0000 .word w) :: rest ∧ t.pend = w

/-- R146: while `BUSY = 1` every host access but a read of `STATUS` is held: the engine completes first, and the access
is still to come. -/
def Obligations.HostIsHeldWhileBusy : Prop :=
  ∀ (s : State) (a : Access) (rest : List Input), s.busy = true → isStatusRead a = false →
    step (s.withInputs (.host a :: rest)) = step (s.withInputs (.engine :: .host a :: rest)) ∧
    ∀ t, step (s.withInputs (.host a :: rest)) = .next t → t.busy = false ∧ t.inputs = .host a :: rest

/-- R146, R17, R35: a read of `STATUS` is accepted at any time, returns the current value and changes nothing else. -/
def Obligations.StatusReadIsAcceptedAtAnyTime : Prop :=
  ∀ (s : State) (rest : List Input), step (s.withInputs (.host (.read 0x0004 .word) :: rest)) =
    .next { s with inputs := rest, outputs := s.status :: s.outputs }

/-- R40(b), R146: while a command runs, no step but a reset changes its message, length or seed, and a step that does
not end it changes neither `RESULT` nor `AD` nor `PEND`. -/
def Obligations.OperandsAreFixedWhileBusy : Prop :=
  ∀ s t : State, s.busy = true → step s = .next t → s.inputs.head? ≠ some .reset →
    t.msg = s.msg ∧ t.len = s.len ∧ t.seed = s.seed ∧ t.params = s.params ∧
    (t.busy = true → t.pend = s.pend ∧ t.result = s.result ∧ t.ad = s.ad ∧ t.fault = s.fault ∧ t.fcode = s.fcode)

/-- R151, R56: a command ends after finitely many steps, whatever the host does. The bound, one step more than the
timeline is long, is the model's (the timeline is assumption log 1, DESIGN CHOICE); within it `BUSY` is 0 again, or, in
the model only (assumption log 6), the block has stopped at an unwritten byte. -/
def Obligations.EveryCommandEnds : Prop :=
  ∀ s : State, s.busy = true → ∃ k, k ≤ s.inputs.length + 1 ∧
    ((∃ t, Sys2Proof.core.run k s = .next t ∧ t.busy = false) ∨
      ∃ a, a < s.len.toNat ∧ s.byteAt a = none ∧ Sys2Proof.core.run k s = .fault (.unwrittenByte a))

/-! ### The 32-bit hash (41_hash32.md R80 to R88) -/

/-- R82 (with general-knowledge passages, assumption log 14): 0 to 4 bytes, each sign-extended; for the empty message
nothing is read. -/
def Obligations.Hash32OfZeroToFourBytes : Prop :=
  ∀ (s : State) (b : Nat → U8), s.HoldsMessage b → s.len.toNat ≤ 4 →
    let bc := (List.range s.len.toNat).foldl
      (fun (p : U32 × U32) i =>
        let b' := p.1 * C1 + (b i).signExtend 32
        (b', p.2 ^^^ b'))
      (0#32, 9#32)
    exec .hash32 s = .next (s.setResult ((fmix32 (mur bc.1 (mur s.len bc.2))).setWidth 64)).retire

/-- R83 (with general-knowledge passages, assumption log 14): 5 to 12 bytes. -/
def Obligations.Hash32OfFiveToTwelveBytes : Prop :=
  ∀ (s : State) (b : Nat → U8), s.HoldsMessage b → 5 ≤ s.len.toNat → s.len.toNat ≤ 12 →
    let n := s.len.toNat
    let a' := s.len + word32 b 0
    let b' := s.len * 5#32 + word32 b (n - 4)
    let c' := 9#32 + word32 b (if n < 8 then 0 else 4)
    let d' := s.len * 5#32
    exec .hash32 s = .next (s.setResult ((fmix32 (mur c' (mur b' (mur a' d')))).setWidth 64)).retire

/-- R84 (with general-knowledge passages, assumption log 14): 13 to 24 bytes, six words. -/
def Obligations.Hash32OfThirteenToTwentyFourBytes : Prop :=
  ∀ (s : State) (b : Nat → U8), s.HoldsMessage b → 13 ≤ s.len.toNat → s.len.toNat ≤ 24 →
    let n := s.len.toNat
    let h := [n / 2 - 4, 4, n - 8, n / 2, 0, n - 4].foldl (fun h o => mur (word32 b o) h) s.len
    exec .hash32 s = .next (s.setResult ((fmix32 h).setWidth 64)).retire

/-- R85, R86, R87, R150: more than 24 bytes: the tail fold, then `(n-1)/20` chunks from the front, then the
finalisation. The registers are `(h, g, f)`. Most of the details are general knowledge (assumption log 14). -/
def Obligations.Hash32OfMoreThanTwentyFourBytes : Prop :=
  ∀ (s : State) (b : Nat → U8), s.HoldsMessage b → 25 ≤ s.len.toNat →
    let n := s.len.toNat
    let a := fun o => ror32 (word32 b o * C1) 17 * C2
    let st := fun h : U32 => ror32 h 19 * 5#32 + MADD
    let tail : U32 × U32 × U32 :=
      (st (st (s.len ^^^ a (n - 4)) ^^^ a (n - 16)),
        st (st ((C1 * s.len) ^^^ a (n - 8)) ^^^ a (n - 12)),
        st (C1 * s.len + a (n - 20)))
    let chunk := fun (r : U32 × U32 × U32) (k : Nat) =>
      let pos := 20 * k
      let h := st (((ror32 (r.1 ^^^ a pos) 18) * 5#32 + MADD) ^^^ (a (pos + 12) + word32 b (pos + 4)))
      let f := ror32 (r.2.2 + word32 b (pos + 4)) 19 * C1 + a pos
      let g := bswap32 (((ror32 (r.2.1 + a (pos + 8)) 18) * 5#32 + MADD) ^^^ word32 b (pos + 16)) * 5#32
      let h := bswap32 (h + word32 b (pos + 16) * 5#32)
      (f, h, g)
    let r := (List.range ((n - 1) / 20)).foldl chunk tail
    let g := ror32 (ror32 r.2.1 11 * C1) 17 * C1
    let f := ror32 (ror32 r.2.2 11 * C1) 17 * C1
    let h := ror32 (st (r.1 + g)) 17 * C1
    let h := ror32 (st (h + f)) 17 * C1
    exec .hash32 s = .next (s.setResult (h.setWidth 64)).retire

/-! ### The 64-bit hash (42_hash64.md R90 to R100) -/

/-- R91, R93 (R93 and `K0` are general knowledge, assumption log 14): the empty message gives `K2` exactly; 1 to 3 bytes,
zero-extended, with 32-bit sums first. -/
def Obligations.Hash64OfZeroToThreeBytes : Prop :=
  ∀ (s : State) (b : Nat → U8), s.HoldsMessage b →
    (s.len.toNat = 0 → exec .hash64 s = .next (s.setResult 0x9ae16a3b2f90404f#64).retire) ∧
    (1 ≤ s.len.toNat → s.len.toNat ≤ 3 →
      let n := s.len.toNat
      let y : U32 := (b 0).setWidth 32 + ((b (n / 2)).setWidth 32 <<< 8)
      let z : U32 := s.len + ((b (n - 1)).setWidth 32 <<< 2)
      exec .hash64 s =
        .next (s.setResult (shiftMix64 ((y.setWidth 64 * K2) ^^^ (z.setWidth 64 * K0)) * K2)).retire)

/-- R94, R92 (with general-knowledge passages, assumption log 14): 4 to 7 bytes, and 8 to 16 bytes. -/
def Obligations.Hash64OfFourToSixteenBytes : Prop :=
  ∀ (s : State) (b : Nat → U8), s.HoldsMessage b →
    let n := s.len.toNat
    let n64 : U64 := s.len.setWidth 64
    let mul := K2 + n64 * 2#64
    (4 ≤ n → n ≤ 7 →
      exec .hash64 s = .next (s.setResult (hashLen16WithMul (n64 + ((word32 b 0).setWidth 64 <<< 3))
        ((word32 b (n - 4)).setWidth 64) mul)).retire) ∧
    (8 ≤ n → n ≤ 16 →
      let a' := word64 b 0 + K2
      let b' := word64 b (n - 8)
      exec .hash64 s = .next (s.setResult (hashLen16WithMul (ror64 b' 37 * mul + a')
        ((ror64 a' 25 + b') * mul) mul)).retire)

/-- R95 (with general-knowledge passages, assumption log 14): 17 to 32 bytes. -/
def Obligations.Hash64OfSeventeenToThirtyTwoBytes : Prop :=
  ∀ (s : State) (b : Nat → U8), s.HoldsMessage b → 17 ≤ s.len.toNat → s.len.toNat ≤ 32 →
    let n := s.len.toNat
    let mul := K2 + s.len.setWidth 64 * 2#64
    let a' := word64 b 0 * K1
    let b' := word64 b 8
    let c' := word64 b (n - 8) * mul
    let d' := word64 b (n - 16) * K2
    exec .hash64 s = .next (s.setResult (hashLen16WithMul (ror64 (a' + b') 43 + ror64 c' 30 + d')
      (a' + ror64 (b' + K2) 18 + c') mul)).retire

/-- R96 (with general-knowledge passages, assumption log 14): 33 to 64 bytes. -/
def Obligations.Hash64OfThirtyThreeToSixtyFourBytes : Prop :=
  ∀ (s : State) (m : Nat → U8), s.HoldsMessage m → 33 ≤ s.len.toNat → s.len.toNat ≤ 64 →
    let n := s.len.toNat
    let mul := K2 + s.len.setWidth 64 * 2#64
    let a := word64 m 0 * K2
    let b := word64 m 8
    let c := word64 m (n - 24)
    let d := word64 m (n - 32)
    let e := word64 m 16 * K2
    let f := word64 m 24 * 9#64
    let g := word64 m (n - 8)
    let h := word64 m (n - 16) * mul
    let u := ror64 (a + g) 43 + (ror64 b 30 + c) * 9#64
    let v := ((a + g) ^^^ d) + f + 1#64
    let w := bswap64 ((u + v) * mul) + h
    let x := ror64 (e + f) 42 + c
    let y := (bswap64 ((v + w) * mul) + g) * mul
    let z := e + f + c
    let a := bswap64 ((x + z) * mul + y) + b
    let b := shiftMix64 ((z + a) * mul + d + h) * mul
    exec .hash64 s = .next (s.setResult (b + x)).retire

/-- R97, R98, R99, R150: more than 64 bytes: the tail-anchored initialisation, then `(n-1)/64` chunks from the front,
then the finalisation. Most of the details are general knowledge (assumption log 14). -/
def Obligations.Hash64OfMoreThanSixtyFourBytes : Prop :=
  ∀ (s : State) (b : Nat → U8), s.HoldsMessage b → 65 ≤ s.len.toNat →
    let n := s.len.toNat
    let n64 : U64 := s.len.setWidth 64
    let weak := fun (p : Nat) (x y : U64) =>
      weakHashLen32WithSeeds (word64 b p) (word64 b (p + 8)) (word64 b (p + 16)) (word64 b (p + 24)) x y
    let x := word64 b (n - 40)
    let y := word64 b (n - 16) + word64 b (n - 56)
    let z := hashLen16 (word64 b (n - 48) + n64) (word64 b (n - 24))
    let tail : Regs64 :=
      { x := x * K1 + word64 b 0, y := y, z := z, v := weak (n - 64) n64 z, w := weak (n - 32) (y + K1) x }
    let chunk := fun (r : Regs64) (k : Nat) =>
      let pos := 64 * k
      let x := (ror64 (r.x + r.y + r.v.1 + word64 b (pos + 8)) 37 * K1) ^^^ r.w.2
      let y := ror64 (r.y + r.v.2 + word64 b (pos + 48)) 42 * K1 + r.v.1 + word64 b (pos + 40)
      let z := ror64 (r.z + r.w.1) 33 * K1
      let v := weak pos (r.v.2 * K1) (x + r.w.1)
      let w := weak (pos + 32) (z + r.w.2) (y + word64 b (pos + 16))
      ({ x := z, y := y, z := x, v := v, w := w } : Regs64)
    let r := (List.range ((n - 1) / 64)).foldl chunk tail
    exec .hash64 s = .next (s.setResult (hashLen16 (hashLen16 r.v.1 r.w.1 + shiftMix64 r.y * K1 + r.z)
      (hashLen16 r.v.2 r.w.2 + r.x))).retire

/-! ### The seeded hash and the adapter (43_seeded.md, 44_adapter.md) -/

/-- R102: the seeded digest is `hash_len_16(d - K2, seed)`, the subtraction wrapping, where `d` is the unseeded digest:
what HASH64 writes on the same state. -/
def Obligations.Hash64SeededIsOneCombineOfHash64 : Prop :=
  ∀ (s : State) (b : Nat → U8), s.HoldsMessage b →
    ∃ t u, exec .hash64 s = .next t ∧ t.CompletedFrom s ∧ t.ad = s.ad ∧
      exec .hash64s s = .next u ∧ u.CompletedFrom s ∧ u.ad = s.ad ∧ u.result = hashLen16 (t.result - K2) s.seed

/-- R105, R106: the two constructions: `AD` becomes `None` or `Some(SEED)` (a seed of 0 too), whatever `LEN` and `MSG` are;
`RESULT` is unchanged. -/
def Obligations.AdapterConstructions : Prop :=
  ∀ s : State,
    (∃ t, exec .adNew s = .next t ∧ t.CompletedFrom s ∧ t.ad = none ∧ t.result = s.result) ∧
    ∃ t, exec .adSeed s = .next t ∧ t.CompletedFrom s ∧ t.ad = some s.seed ∧ t.result = s.result

/-- R107: a feed replaces `AD` by the unseeded digest (from `None`) or by the digest seeded with the held value (R102); it
writes no `RESULT` and reads no `SEED`. With `LEN > BUF_BYTES` it raises LENGTH_RANGE and `AD` is unchanged. -/
def Obligations.FeedReplacesTheAdapterState : Prop :=
  (∀ (s : State) (b : Nat → U8), s.HoldsMessage b →
    ∃ h t, exec .hash64 s = .next h ∧ exec .adFeed s = .next t ∧ t.CompletedFrom s ∧ t.result = s.result ∧
      (s.ad = none → t.ad = some h.result) ∧ ∀ k, s.ad = some k → t.ad = some (hashLen16 (h.result - K2) k)) ∧
  ∀ s : State, s.params.bufBytes < s.len.toNat →
    ∃ t, exec .adFeed s = .next t ∧ t.ad = s.ad ∧ t.fault = true ∧ t.fcode = 3#4 ∧ t.busy = false

/-- R109: finalize returns the held value, or 0 from `None`, and leaves the adapter as it is. -/
def Obligations.FinalizeReturnsTheHeldValue : Prop :=
  ∀ s : State, ∃ t, exec .adFin s = .next t ∧ t.CompletedFrom s ∧ t.ad = s.ad ∧
    (s.ad = none → t.result = 0#64) ∧ ∀ v, s.ad = some v → t.result = v

/-- R108: the three testable forms of chained reseed, for every two messages: `s` holds the first, and the same block with
buffer `m` and length `l` the second. Then that the third form is NOT the digest of the concatenation, on the rule's own
pair: `s` holds "hello", with `m` the block holds "world", with `m'` it holds "helloworld", and the two results are the
rule's two numbers (their values rest on general-knowledge passages, assumption log 14). -/
def Obligations.ChainedReseedNotConcatenation : Prop :=
  (∀ (s : State) (b1 : Nat → U8), s.HoldsMessage b1 →
    ∃ r rs, exec .hash64 s = .next r ∧ exec .hash64s s = .next rs ∧
    (∃ t1 t2 t3, exec .adNew s = .next t1 ∧ exec .adFeed t1 = .next t2 ∧ exec .adFin t2 = .next t3 ∧
      t3.result = r.result ∧
      ∀ (m : Memory) (l : U32) (b2 : Nat → U8), State.HoldsMessage { s with msg := m, len := l } b2 →
        ∃ q u1 u2, exec .hash64 { s with msg := m, len := l } = .next q ∧
          exec .adFeed { t2 with msg := m, len := l } = .next u1 ∧ exec .adFin u1 = .next u2 ∧
          u2.result = hashLen16 (q.result - K2) r.result) ∧
    (∃ t1 t2 t3, exec .adSeed s = .next t1 ∧ exec .adFeed t1 = .next t2 ∧ exec .adFin t2 = .next t3 ∧
      t3.result = rs.result)) ∧
  ∀ (s : State) (m m' : Memory),
    let hello : List U8 := [0x68#8, 0x65#8, 0x6c#8, 0x6c#8, 0x6f#8]
    let world : List U8 := [0x77#8, 0x6f#8, 0x72#8, 0x6c#8, 0x64#8]
    s.len = 5#32 → s.HoldsMessage (fun i => hello.getD i 0#8) →
    State.HoldsMessage { s with msg := m, len := 5#32 } (fun i => world.getD i 0#8) →
    State.HoldsMessage { s with msg := m', len := 10#32 } (fun i => (hello ++ world).getD i 0#8) →
    ∃ t1 t2 u1 u2 q, exec .adNew s = .next t1 ∧ exec .adFeed t1 = .next t2 ∧
      exec .adFeed { t2 with msg := m, len := 5#32 } = .next u1 ∧ exec .adFin u1 = .next u2 ∧
      exec .hash64 { s with msg := m', len := 10#32 } = .next q ∧
      u2.result = 0xcbe465e68d6df126#64 ∧ q.result = 0x7ab4eee57f0f9b0b#64 ∧ u2.result ≠ q.result

/-! ### Faults and what cannot happen (60_exceptions.md R120 to R127) -/

/-- R123: a message-reading command with `LEN > BUF_BYTES` raises LENGTH_RANGE before any byte is read (written or not),
and nothing of the block's data state changes; AD.NEW, AD.SEED and AD.FIN do not look at `LEN` and never raise it. -/
def Obligations.LengthBeyondTheBufferTakesLengthRangeFault : Prop :=
  (∀ (i : Instr) (s : State), i ∈ [Instr.hash32, .hash64, .hash64s, .adFeed] → s.params.bufBytes < s.len.toNat →
    ∃ t, exec i s = .next t ∧ t.fault = true ∧ t.fcode = 3#4 ∧ t.busy = false ∧ t.result = s.result ∧ t.ad = s.ad ∧
      t.len = s.len ∧ t.seed = s.seed ∧ t.msg = s.msg ∧ t.params = s.params ∧ t.inputs = s.inputs ∧
      t.outputs = s.outputs) ∧
  ∀ (i : Instr) (s : State), i ∈ [Instr.adNew, .adSeed, .adFin] → ∃ t, exec i s = .next t ∧ t.CompletedFrom s

/-- R39, R121: no command raises BOUNDS, for any length and any content: a command that changes `FAULT` or `FCODE`
raised LENGTH_RANGE; and no command reads outside the view. -/
def Obligations.NoCommandRaisesBounds : Prop :=
  ∀ (i : Instr) (s : State),
    (∀ t, exec i s = .next t →
      (t.fault = s.fault ∧ t.fcode = s.fcode) ∨
      (s.params.bufBytes < s.len.toNat ∧ t.fault = true ∧ t.fcode = 3#4)) ∧
    ∀ o w, exec i s ≠ .fault (.uncheckedRead o w)

/-- R43: the two access disciplines give the same digests: a command does the same with `CHECKED` 0 and 1. -/
def Obligations.TheTwoDisciplinesAgree : Prop :=
  ∀ (i : Instr) (s : State) (c : Bool),
    let with' := fun t : State => { t with params := { t.params with checked := c } }
    (∀ t, exec i s = .next t → exec i (with' s) = .next (with' t)) ∧
    (∀ r, exec i s = .fault r → exec i (with' s) = .fault r)

/-- R56, R144, R39: a message-reading command over a written message no longer than the buffer completes without a
fault, in either discipline. -/
def Obligations.MessageCommandsCompleteOverAWrittenMessage : Prop :=
  ∀ (i : Instr) (s : State) (b : Nat → U8), i ∈ [Instr.hash32, .hash64, .hash64s, .adFeed] → s.HoldsMessage b →
    ∃ t, exec i s = .next t ∧ t.busy = false ∧ t.fault = s.fault ∧ t.fcode = s.fcode

/-- R44 (its model clause, U2): a command stops in the model exactly when it reads the message, the length is in range
and a byte of the message is unwritten; it stops at such a byte. No command is refused. -/
def Obligations.CommandsStopExactlyAtUnwrittenBytes : Prop :=
  ∀ (i : Instr) (s : State),
    ((∃ r, exec i s = .fault r) ↔
      (i ∈ [Instr.hash32, .hash64, .hash64s, .adFeed] ∧ s.len.toNat ≤ s.params.bufBytes ∧
        ∃ a, a < s.len.toNat ∧ s.byteAt a = none)) ∧
    (∀ r, exec i s = .fault r → ∃ a, r = .unwrittenByte a ∧ a < s.len.toNat ∧ s.byteAt a = none) ∧
    ∀ r, exec i s ≠ .refused r

/-- R127, R19: in the fault state nothing but a reset clears `FAULT` or `FCODE` or changes `RESULT` or `AD`, and `BUSY`
stays 0. (`Inv` rules out the unreachable states with a command running in the fault state.) -/
def Obligations.FaultStateIsLeftOnlyByReset : Prop :=
  ∀ s t : State, s.Inv → s.fault = true → step s = .next t → s.inputs.head? ≠ some .reset →
    t.fault = true ∧ t.fcode = s.fcode ∧ t.result = s.result ∧ t.ad = s.ad ∧ t.busy = false

/-! ### Who writes what (10_state.md R10 to R27) -/

/-- The frame of every command (R15, R36): parameters, message, length, seed, the timeline and what the host has read
stay; `RESULT` and `AD` change only by the commands that write them; a form that stores nothing changes no byte. -/
def Obligations.CommandFrame : Prop :=
  ∀ (i : Instr) (s t : State), exec i s = .next t →
    t.params = s.params ∧ t.msg = s.msg ∧ (∀ a, t.byteAt a = s.byteAt a) ∧ t.len = s.len ∧ t.seed = s.seed ∧
    t.inputs = s.inputs ∧ t.outputs = s.outputs ∧ t.busy = false ∧
    (i ∈ [Instr.adNew, .adSeed, .adFeed] → t.result = s.result) ∧
    (i ∈ [Instr.hash32, .hash64, .hash64s, .adFin] → t.ad = s.ad) ∧
    (i ∈ [Instr.adNew, .adSeed, .adFin] → t.fault = s.fault ∧ t.fcode = s.fcode)

/-- R13: `RESULT` changes only at the completion of HASH32, HASH64, HASH64S or AD.FIN, or by reset. -/
def Obligations.ResultIsWrittenOnlyByItsFourCommands : Prop :=
  ∀ s t : State, step s = .next t → t.result ≠ s.result →
    s.inputs.head? = some .reset ∨
    (s.busy = true ∧ t.busy = false ∧
      ∃ i, decodeWord s.pend = .ok i ∧ i ∈ [Instr.hash32, .hash64, .hash64s, .adFin])

/-- R14, R21: `AD` changes only at the completion of AD.NEW, AD.SEED or AD.FEED, or by reset. -/
def Obligations.AdapterIsWrittenOnlyByItsCommands : Prop :=
  ∀ s t : State, step s = .next t → t.ad ≠ s.ad →
    s.inputs.head? = some .reset ∨
    (s.busy = true ∧ t.busy = false ∧ ∃ i, decodeWord s.pend = .ok i ∧ i ∈ [Instr.adNew, .adSeed, .adFeed])

/-- R35 ("identical byte content always yields identical digest, independent of call history"), R39: two blocks that
agree on the length and the bytes below it, and on the seed the command uses, get the same digest, whatever else differs
between them: bytes at or beyond the length, earlier results, the other registers. -/
def Obligations.DigestDependsOnTheMessageAlone : Prop :=
  ∀ s t : State, s.len = t.len → s.len.toNat ≤ s.params.bufBytes → t.len.toNat ≤ t.params.bufBytes →
    (∀ a, a < s.len.toNat → s.byteAt a = t.byteAt a) →
    (∀ i, i ∈ [Instr.hash32, .hash64] ∨ (i = .hash64s ∧ s.seed = t.seed) →
      ∀ s', exec i s = .next s' → ∃ t', exec i t = .next t' ∧ t'.result = s'.result) ∧
    (s.ad = t.ad → ∀ s', exec .adFeed s = .next s' → ∃ t', exec .adFeed t = .next t' ∧ t'.ad = s'.ad)

/-! ### The host port (20_memory.md R31 to R37, 10_state.md R17, R27) -/

/-- R17: the fields of `STATUS`; a host write to it has no effect. -/
def Obligations.StatusFields : Prop :=
  ∀ s : State,
    (s.status.getLsbD 0 = s.busy ∧ s.status.getLsbD 1 = s.fault ∧ s.status.getLsbD 2 = s.ad.isSome ∧
      s.status.getLsbD 3 = false ∧ s.status.extractLsb' 4 4 = s.fcode ∧ s.status.extractLsb' 8 24 = 0#24) ∧
    ∀ (d : U32) (rest : List Input), s.busy = false →
      step (s.withInputs (.host (.write 0x0004 .word d) :: rest)) = .next (s.withInputs rest)

/-- R27, R31, R35: what an aligned 32-bit read of each register returns; the read changes nothing. Reads of `CMD` and of
reserved offsets return 0. -/
def Obligations.RegisterReads : Prop :=
  ∀ (s : State) (rest : List Input), s.busy = false →
    let reads := fun (off : Nat) (v : U32) =>
      step (s.withInputs (.host (.read off .word) :: rest)) = .next { s with inputs := rest, outputs := v :: s.outputs }
    reads 0x0000 0#32 ∧ reads 0x0004 s.status ∧ reads 0x0008 s.len ∧ reads 0x000C 0#32 ∧
    reads 0x0010 (s.seed.extractLsb' 0 32) ∧ reads 0x0014 (s.seed.extractLsb' 32 32) ∧
    reads 0x0018 (s.result.extractLsb' 0 32) ∧ reads 0x001C (s.result.extractLsb' 32 32) ∧
    ∀ off, 0x20 ≤ off → off + 4 ≤ 0x1000 → off % 4 = 0 → reads off 0#32

/-- R11, R12, R148: what a write to `LEN` or to a half of `SEED` does: that and nothing else, in the fault state too
(R127). -/
def Obligations.RegisterWrites : Prop :=
  ∀ (s : State) (d : U32) (rest : List Input), s.busy = false →
    let writes := fun (off : Nat) (t : State) =>
      step (s.withInputs (.host (.write off .word d) :: rest)) = .next (t.withInputs rest)
    writes 0x0008 { s with len := d } ∧
    ∃ lo hi : U64, writes 0x0010 { s with seed := lo } ∧ writes 0x0014 { s with seed := hi } ∧
      lo.extractLsb' 0 32 = d ∧ lo.extractLsb' 32 32 = s.seed.extractLsb' 32 32 ∧
      hi.extractLsb' 32 32 = d ∧ hi.extractLsb' 0 32 = s.seed.extractLsb' 0 32

/-- R27, R17: a write to a read-only register or to a reserved offset has no effect. -/
def Obligations.WritesToReadOnlyAndReservedHaveNoEffect : Prop :=
  ∀ (s : State) (d : U32) (rest : List Input) (off : Nat), s.busy = false →
    off ∈ [0x0004, 0x000C, 0x0018, 0x001C] ∨ (0x20 ≤ off ∧ off + 4 ≤ 0x1000 ∧ off % 4 = 0) →
    step (s.withInputs (.host (.write off .word d) :: rest)) = .next (s.withInputs rest)

/-- R36: a byte write to the window stores the byte, a word write the four bytes little-endian; every other byte and all
other state stay. -/
def Obligations.WindowWrites : Prop :=
  ∀ (s : State) (d : U32) (i : Nat) (rest : List Input), s.busy = false →
    (i < s.params.bufBytes →
      ∃ m, step (s.withInputs (.host (.write (0x1000 + i) .byte d) :: rest)) = .next { s with msg := m, inputs := rest } ∧
        ∀ a, m.read a = if a = i then some (d.extractLsb' 0 8) else s.byteAt a) ∧
    (i % 4 = 0 → i + 4 ≤ s.params.bufBytes →
      ∃ m, step (s.withInputs (.host (.write (0x1000 + i) .word d) :: rest)) = .next { s with msg := m, inputs := rest } ∧
        (∀ k, k < 4 → m.read (i + k) = some (d.extractLsb' (8 * k) 8)) ∧
        ∀ a, a < i ∨ i + 4 ≤ a → m.read a = s.byteAt a)

/-- R37: a byte read of the window returns the stored byte, a word read the four stored bytes little-endian; a read of
an unwritten byte returns some value and is an ordinary read (U3; the free value is assumption log 7). That a byte read is
recorded zero-extended to 32 bits (`x.setWidth 32`) is the model's choice (assumption log 2, DESIGN CHOICE), no sentence of
R37. No state of the block changes. -/
def Obligations.WindowReads : Prop :=
  ∀ (s : State) (i : Nat) (rest : List Input), s.busy = false →
    let reads := fun (w : Width) (v : U32) => ∃ n,
      step (s.withInputs (.host (.read (0x1000 + i) w) :: rest)) =
        .next { s with inputs := rest, outputs := v :: s.outputs, draws := n }
    (i < s.params.bufBytes → ∃ v, reads .byte v ∧ ∀ x, s.byteAt i = some x → v = x.setWidth 32) ∧
    (i % 4 = 0 → i + 4 ≤ s.params.bufBytes →
      ∃ v, reads .word v ∧ ∀ k x, k < 4 → s.byteAt (i + k) = some x → v.extractLsb' (8 * k) 8 = x)

/-- R34, R36, U6, U7: the block refuses exactly the host accesses that the spec leaves out: not an aligned 32-bit access
to a register, not a byte or an aligned word of the window, or past the window's end. (That the reserved space takes an
access of any form is the model's choice, assumption log 12.) -/
def Obligations.RefusedAccessesAreTheOnesLeftOut : Prop :=
  ∀ s : State, (∃ r, step s = .refused r) ↔
    (s.busy = false ∧ ∃ a rest, s.inputs = .host a :: rest ∧ a.wellFormed s.params = false)

/-- R147: the two halves of `RESULT`, read one after the other in either order, are the halves of one digest. -/
def Obligations.ResultHalvesAreOfOneDigest : Prop :=
  ∀ (s : State) (rest : List Input), s.busy = false → ∃ lo hi : U32, hi ++ lo = s.result ∧
    Sys2Proof.core.run 2 (s.withInputs (.host (.read 0x0018 .word) :: .host (.read 0x001C .word) :: rest)) =
      .next { s with inputs := rest, outputs := hi :: lo :: s.outputs } ∧
    Sys2Proof.core.run 2 (s.withInputs (.host (.read 0x001C .word) :: .host (.read 0x0018 .word) :: rest)) =
      .next { s with inputs := rest, outputs := lo :: hi :: s.outputs }

/-- R32, R33, R34: `MemRead`: in bounds, at any offset, the little-endian value of the bytes; past the length, BOUNDS in
the checked discipline, whatever lies in the buffer; in the unchecked one a stop, the model's choice for "undefined
behaviour" (assumption log 8). -/
def Obligations.ByteViewReads : Prop :=
  ∀ (v : View) (o : Nat),
    (∀ b : Nat → U8, (∀ i, i < v.n → v.msg.read i = some (b i)) →
      (o + 1 ≤ v.n → v.byte o = .ok (b o)) ∧
      (o + 4 ≤ v.n → ∃ x, v.fetch32 o = .ok x ∧ ∀ k, k < 4 → x.extractLsb' (8 * k) 8 = b (o + k)) ∧
      (o + 8 ≤ v.n → ∃ x, v.fetch64 o = .ok x ∧ ∀ k, k < 8 → x.extractLsb' (8 * k) 8 = b (o + k))) ∧
    (let out := fun w => if v.checked then Halt.raised .bounds else Halt.stuck (.uncheckedRead o w);
      (v.n < o + 1 → v.byte o = .error (out 1)) ∧ (v.n < o + 4 → v.fetch32 o = .error (out 4)) ∧
      (v.n < o + 8 → v.fetch64 o = .error (out 8)))

/-! ### Host macros (30_encoding.md R58) -/

/-- R58: `LOAD bytes` on an idle block writes the bytes from `MSG[0]` on and their number into `LEN`, and nothing else. -/
def Obligations.LoadMacroLoadsTheMessage : Prop :=
  ∀ (s : State) (bytes : List U8) (rest : List Input), s.busy = false → bytes.length ≤ s.params.bufBytes →
    ∃ m, Sys2Proof.core.run (bytes.length + 1) (s.withInputs (macroLoad bytes ++ rest)) =
        .next { s with msg := m, len := BitVec.ofNat 32 bytes.length, inputs := rest } ∧
      ∀ a, m.read a = if h : a < bytes.length then some bytes[a] else s.byteAt a

/-- R58, R148: `SETSEED v` on an idle block makes `SEED` the value `v`. -/
def Obligations.SetSeedMacroSetsTheSeed : Prop :=
  ∀ (s : State) (v : U64) (rest : List Input), s.busy = false →
    Sys2Proof.core.run 2 (s.withInputs (macroSetSeed v ++ rest)) = .next { s with seed := v, inputs := rest }

/-- R58, R55, R56, R151: `DO mnemonic` on an idle block outside the fault state: any number `k` of polls see `BUSY = 1`,
then the command is performed on the registers as they were at issue, and the last poll sees `BUSY = 0` and returns the
status the command left. -/
def Obligations.DoMacroPerformsTheCommand : Prop :=
  ∀ (s t : State) (i : Instr) (k : Nat) (rest : List Input), s.busy = false → s.fault = false →
    exec i { s with pend := encode i, busy := true } = .next t →
    ∃ polls : List U32, polls.length = k ∧ (∀ p ∈ polls, p.getLsbD 0 = true) ∧
      Sys2Proof.core.run (k + 3) (s.withInputs (macroDo i k ++ rest)) =
        .next { t with inputs := rest, outputs := t.status :: (polls ++ s.outputs) }

/-! ### Reset and invariants (70_reset_and_hazards.md R140 to R143) -/

/-- R141, R142: what reset leaves, with the running parameter values of 00_scope.md R4. -/
def Obligations.ResetValues : Prop :=
  State.reset.busy = false ∧ State.reset.fault = false ∧ State.reset.fcode = 0#4 ∧ State.reset.ad = none ∧
  State.reset.len = 0#32 ∧ State.reset.seed = 0#64 ∧ State.reset.result = 0#64 ∧ State.reset.status = 0#32 ∧
  (∀ a, State.reset.byteAt a = none) ∧ State.reset.params = { bufBytes := 4096, checked := true }

/-- R140, R141, R142, R143: reset takes the block from any state, busy or faulted, to the reset state in one step; the
running command is abandoned without trace. -/
def Obligations.ResetFromAnyState : Prop :=
  ∀ (s : State) (rest : List Input), ∃ t, step (s.withInputs (.reset :: rest)) = .next t ∧
    t.busy = false ∧ t.fault = false ∧ t.fcode = 0#4 ∧ t.ad = none ∧ t.len = 0#32 ∧ t.seed = 0#64 ∧ t.result = 0#64 ∧
    t.status = 0#32 ∧ (∀ a, t.byteAt a = none) ∧ t.params = s.params ∧ t.inputs = rest ∧ t.outputs = s.outputs

/-- The invariant holds after reset, for every legal value of the parameters (R4). -/
def Obligations.InvariantHoldsAtReset : Prop :=
  State.reset.Inv ∧ ∀ p : Params, p.legal → (State.resetWith p).Inv

/-- The invariant is kept by every step: legal parameters, the buffer in canonical form and inside its capacity (R26), an
`FCODE` that is 0 without a fault and 1 to 3 with one (R20, R120, U8), no command running in the fault state (R19, R127). -/
def Obligations.InvariantIsKeptByEveryStep : Prop :=
  ∀ s t : State, s.Inv → step s = .next t → t.Inv

/-! ### Primitives (40_primitives.md R60 to R75) -/

/-- R64, R65: bit `i` of a rotate right by `r` is bit `(i + r) mod W` of the value, for every distance below the width. -/
def Obligations.RotateRightMovesBits : Prop :=
  (∀ (v : U32) (r i : Nat), r < 32 → i < 32 → (ror32 v r).getLsbD i = v.getLsbD ((i + r) % 32)) ∧
  ∀ (v : U64) (r i : Nat), r < 64 → i < 64 → (ror64 v r).getLsbD i = v.getLsbD ((i + r) % 64)

/-- R66 (general knowledge, assumption log 14): byte `k` of a byte swap is byte `3 - k` (or `7 - k`) of the value; a byte swap is an involution. -/
def Obligations.ByteSwapReversesBytes : Prop :=
  (∀ (v : U32) (k : Nat), k < 4 → (bswap32 v).extractLsb' (8 * k) 8 = v.extractLsb' (8 * (3 - k)) 8) ∧
  (∀ (v : U64) (k : Nat), k < 8 → (bswap64 v).extractLsb' (8 * k) 8 = v.extractLsb' (8 * (7 - k)) 8) ∧
  (∀ v : U32, bswap32 (bswap32 v) = v) ∧ ∀ v : U64, bswap64 (bswap64 v) = v

/-- R67, R72: the avalanche finalizer and the shift-mix are bijections. -/
def Obligations.FinalizerAndShiftMixAreBijections : Prop :=
  Function.Bijective fmix32 ∧ Function.Bijective shiftMix64

/-- R63, R67 to R75: the constants as numbers, the body of each primitive by its rule's pseudocode with the constants
written out, and the corner cases the rules state. From general knowledge (assumption log 14) are the values of `K0` and
`K1`, the shift distances of `fmix32` and the body of the weak hash. The rotates are those of `RotateRightMovesBits`. -/
def Obligations.PrimitiveIdentities : Prop :=
  (K0 = 0xc3a5c85c97cb3127#64 ∧ K1 = 0xb492b66fbe98f273#64 ∧ K2 = 0x9ae16a3b2f90404f#64 ∧
    KMUL = 0x9ddfea08eb382d69#64 ∧ C1 = 0xcc9e2d51#32 ∧ C2 = 0x1b873593#32 ∧ MADD = 0xe6546b64#32 ∧
    FM1 = 0x85ebca6b#32 ∧ FM2 = 0xc2b2ae35#32) ∧
  (∀ h : U32, fmix32 h =
    let h1 := (h ^^^ (h >>> 16)) * 0x85ebca6b#32
    let h2 := (h1 ^^^ (h1 >>> 13)) * 0xc2b2ae35#32
    h2 ^^^ (h2 >>> 16)) ∧
  (∀ a h : U32, mur a h =
    ror32 (h ^^^ (ror32 (a * 0xcc9e2d51#32) 17 * 0x1b873593#32)) 19 * 5#32 + 0xe6546b64#32) ∧
  (∀ x : U32, premix32 x = ror32 (x * 0xcc9e2d51#32) 17 * 0x1b873593#32) ∧
  (∀ h : U32, step32 h = ror32 h 19 * 5#32 + 0xe6546b64#32) ∧
  (∀ a b c : U32, permute3 a b c = (c, a, b)) ∧
  (∀ v : U64, shiftMix64 v = v ^^^ (v >>> 47)) ∧
  (∀ u v mul : U64, hashLen16WithMul u v mul =
    let a1 := (u ^^^ v) * mul
    let a2 := a1 ^^^ (a1 >>> 47)
    let b1 := (v ^^^ a2) * mul
    (b1 ^^^ (b1 >>> 47)) * mul) ∧
  (∀ u v : U64, hashLen16 u v = hashLen16WithMul u v 0x9ddfea08eb382d69#64) ∧
  (∀ w x y z a b : U64, weakHashLen32WithSeeds w x y z a b =
    (a + w + x + y + z, ror64 (b + (a + w) + z) 21 + ror64 (a + w + x + y) 44 + (a + w))) ∧
  (∀ a h : U32, mur a h = step32 (h ^^^ premix32 a)) ∧
  fmix32 0#32 = 0#32 ∧ mur 0#32 0#32 = 0xe6546b64#32 ∧ premix32 0#32 = 0#32 ∧ step32 0#32 = 0xe6546b64#32 ∧
  (∀ mul : U64, hashLen16WithMul 0#64 0#64 mul = 0#64) ∧ hashLen16 0#64 0#64 = 0#64
end

