-- ==== Sys2Proof/Laws/View.lean ====
section
/-! SUPPORT. What the Byte View's reads can do, once (20_memory.md R32, R33, R44): in bounds over written bytes they return
the little-endian value; in bounds they can stop only at an unwritten byte; out of bounds they end as R32 says. -/

namespace Sys2Proof.Machine

/-- The message of the view is written, with the bytes `b`. -/
abbrev View.Holds (v : View) (b : Nat → U8) : Prop := ∀ i, i < v.n → v.msg.read i = some (b i)

/-- A computation over the view that ends early only at an unwritten byte below the length: it raises no fault and makes
no read outside the view. -/
def View.OnlyUnwritten {α : Type} (v : View) (x : Except Halt α) : Prop :=
  ∀ h, x = .error h → ∃ a, h = .stuck (.unwrittenByte a) ∧ a < v.n ∧ v.msg.read a = none

theorem State.view_holds {s : State} {b : Nat → U8} (h : s.HoldsMessage b) : s.view.Holds b := h.2

section bounds

theorem View.bound_ok {v : View} {o w : Nat} (h : o + w ≤ v.n) : v.bound o w = .ok () := by
  simp [View.bound, Nat.not_lt.mpr h]

theorem View.bound_raises {v : View} {o w : Nat} (h : v.n < o + w) (hc : v.checked = true) :
    v.bound o w = .error (.raised .bounds) := by
  simp [View.bound, h, hc]

theorem View.bound_stuck {v : View} {o w : Nat} (h : v.n < o + w) (hc : v.checked = false) :
    v.bound o w = .error (.stuck (.uncheckedRead o w)) := by
  simp [View.bound, h, hc]

theorem View.cell_ok {v : View} {b : Nat → U8} (hv : v.Holds b) {a : Nat} (h : a < v.n) : v.cell a = .ok (b a) := by
  simp [View.cell, hv a h]

end bounds

section holds

variable {v : View} {b : Nat → U8}

theorem View.byte_ok (hv : v.Holds b) {o : Nat} (h : o < v.n) : v.byte o = .ok (b o) := by
  rw [View.byte, View.bound_ok (by omega), View.cell_ok hv h]
  rfl

theorem View.fetch32_ok (hv : v.Holds b) {o : Nat} (h : o + 4 ≤ v.n) : v.fetch32 o = .ok (word32 b o) := by
  rw [View.fetch32, View.bound_ok h, View.cell_ok hv (by omega), View.cell_ok hv (by omega),
    View.cell_ok hv (by omega), View.cell_ok hv (by omega)]
  rfl

theorem View.fetch64_ok (hv : v.Holds b) {o : Nat} (h : o + 8 ≤ v.n) : v.fetch64 o = .ok (word64 b o) := by
  rw [View.fetch64, View.bound_ok h, View.cell_ok hv (by omega), View.cell_ok hv (by omega),
    View.cell_ok hv (by omega), View.cell_ok hv (by omega), View.cell_ok hv (by omega), View.cell_ok hv (by omega),
    View.cell_ok hv (by omega), View.cell_ok hv (by omega)]
  rfl

theorem View.weakHashAt_ok (hv : v.Holds b) {p : Nat} (h : p + 32 ≤ v.n) (x y : U64) :
    v.weakHashAt p x y = .ok (weakHashLen32WithSeeds (word64 b p) (word64 b (p + 8)) (word64 b (p + 16))
      (word64 b (p + 24)) x y) := by
  rw [View.weakHashAt, View.fetch64_ok hv (by omega), View.fetch64_ok hv (by omega), View.fetch64_ok hv (by omega),
    View.fetch64_ok hv (by omega)]
  rfl

end holds

section onlyUnwritten

variable {α β : Type} {v : View}

theorem View.onlyUnwritten_ok (x : α) : v.OnlyUnwritten (.ok x : Except Halt α) := by
  intro h e; cases e

theorem View.onlyUnwritten_bind {x : Except Halt α} {f : α → Except Halt β} (hx : v.OnlyUnwritten x)
    (hf : ∀ a, v.OnlyUnwritten (f a)) : v.OnlyUnwritten (x >>= f) := by
  cases x with
  | error h => intro h' e; cases e; exact hx h rfl
  | ok a => exact hf a

theorem View.onlyUnwritten_map {x : Except Halt α} (hx : v.OnlyUnwritten x) (f : α → β) :
    v.OnlyUnwritten (x >>= fun a => pure (f a)) :=
  View.onlyUnwritten_bind hx fun a => View.onlyUnwritten_ok (f a)

theorem View.cell_onlyUnwritten {a : Nat} (h : a < v.n) : v.OnlyUnwritten (v.cell a) := by
  intro e he
  unfold View.cell at he
  split at he
  · cases he
  · next hr => cases he; exact ⟨a, rfl, h, hr⟩

theorem View.byte_onlyUnwritten {o : Nat} (h : o < v.n) : v.OnlyUnwritten (v.byte o) := by
  rw [View.byte, View.bound_ok (by omega)]
  exact View.cell_onlyUnwritten h

theorem View.fetch32_onlyUnwritten {o : Nat} (h : o + 4 ≤ v.n) : v.OnlyUnwritten (v.fetch32 o) := by
  rw [View.fetch32, View.bound_ok h]
  refine View.onlyUnwritten_bind (View.onlyUnwritten_ok ()) fun _ => ?_
  iterate 4 refine View.onlyUnwritten_bind (View.cell_onlyUnwritten (by omega)) fun _ => ?_
  exact View.onlyUnwritten_ok _

theorem View.fetch64_onlyUnwritten {o : Nat} (h : o + 8 ≤ v.n) : v.OnlyUnwritten (v.fetch64 o) := by
  rw [View.fetch64, View.bound_ok h]
  refine View.onlyUnwritten_bind (View.onlyUnwritten_ok ()) fun _ => ?_
  iterate 8 refine View.onlyUnwritten_bind (View.cell_onlyUnwritten (by omega)) fun _ => ?_
  exact View.onlyUnwritten_ok _

theorem View.weakHashAt_onlyUnwritten {p : Nat} (h : p + 32 ≤ v.n) (x y : U64) :
    v.OnlyUnwritten (v.weakHashAt p x y) := by
  unfold View.weakHashAt
  iterate 4 refine View.onlyUnwritten_bind (View.fetch64_onlyUnwritten (by omega)) fun _ => ?_
  exact View.onlyUnwritten_ok _

end onlyUnwritten

end Sys2Proof.Machine
end

