-- ==== Sys2Proof/Laws/Hash.lean ====
section
/-! SUPPORT. Every read of every bucket is in bounds over the bucket's length range (20_memory.md R39): both hashes end
early only at an unwritten byte of the message. -/

namespace Sys2Proof.Machine

variable {v : View}

section hash32

theorem foldBytes32_onlyUnwritten (k : Nat) : ∀ i b c, i + k ≤ v.n → v.OnlyUnwritten (foldBytes32 v k i b c) := by
  induction k with
  | zero => intro i b c _; exact View.onlyUnwritten_ok _
  | succ k ih =>
    intro i b c h
    exact View.onlyUnwritten_bind (View.byte_onlyUnwritten (by omega)) fun x => ih _ _ _ (by omega)

theorem hash32Len0To4_onlyUnwritten : v.OnlyUnwritten (hash32Len0To4 v) :=
  View.onlyUnwritten_bind (foldBytes32_onlyUnwritten v.n 0 _ _ (by omega)) fun _ => View.onlyUnwritten_ok _

theorem hash32Len5To12_onlyUnwritten (h5 : 5 ≤ v.n) : v.OnlyUnwritten (hash32Len5To12 v) := by
  have hmid : (v.n >>> 1) &&& 4 ≤ 4 := Nat.and_le_right
  have hmid0 : v.n < 8 → (v.n >>> 1) &&& 4 = 0 := by
    intro h; generalize v.n = n at *
    interval_cases n <;> rfl
  unfold hash32Len5To12
  refine View.onlyUnwritten_bind (View.fetch32_onlyUnwritten (by omega)) fun _ => ?_
  refine View.onlyUnwritten_bind (View.fetch32_onlyUnwritten (by omega)) fun _ => ?_
  refine View.onlyUnwritten_bind (View.fetch32_onlyUnwritten ?_) fun _ => View.onlyUnwritten_ok _
  by_cases h8 : v.n < 8
  · rw [hmid0 h8]; omega
  · omega

theorem hash32Len13To24_onlyUnwritten (h : 13 ≤ v.n) : v.OnlyUnwritten (hash32Len13To24 v) := by
  have hs : v.n >>> 1 = v.n / 2 := Nat.shiftRight_one v.n
  unfold hash32Len13To24
  iterate 6 refine View.onlyUnwritten_bind (View.fetch32_onlyUnwritten (by omega)) fun _ => ?_
  exact View.onlyUnwritten_ok _

theorem hash32Tail_onlyUnwritten (h : 25 ≤ v.n) : v.OnlyUnwritten (hash32Tail v) := by
  unfold hash32Tail
  iterate 5 refine View.onlyUnwritten_bind (View.fetch32_onlyUnwritten (by omega)) fun _ => ?_
  exact View.onlyUnwritten_ok _

theorem hash32Loop_onlyUnwritten (k : Nat) : ∀ pos r, pos + 20 * k ≤ v.n → v.OnlyUnwritten (hash32Loop v k pos r) := by
  induction k with
  | zero => intro pos r _; exact View.onlyUnwritten_ok _
  | succ k ih =>
    intro pos r h
    unfold hash32Loop
    iterate 5 refine View.onlyUnwritten_bind (View.fetch32_onlyUnwritten (by omega)) fun _ => ?_
    exact ih _ _ (by omega)

theorem hash32Long_onlyUnwritten (h : 25 ≤ v.n) : v.OnlyUnwritten (hash32Long v) := by
  have hc : 0 + 20 * ((v.n - 1) / 20) ≤ v.n := by omega
  unfold hash32Long
  refine View.onlyUnwritten_bind (hash32Tail_onlyUnwritten h) fun r => ?_
  exact View.onlyUnwritten_bind (hash32Loop_onlyUnwritten _ _ r hc) fun _ => View.onlyUnwritten_ok _

/-- The 32-bit hash raises no fault, whatever the length (R39). -/
theorem digest32_onlyUnwritten (v : View) : v.OnlyUnwritten (digest32 v) := by
  unfold digest32
  split
  · exact hash32Len0To4_onlyUnwritten
  · split
    · exact hash32Len5To12_onlyUnwritten (by omega)
    · split
      · exact hash32Len13To24_onlyUnwritten (by omega)
      · exact hash32Long_onlyUnwritten (by omega)

end hash32

section hash64

theorem hash64Len8To16_onlyUnwritten (h : 8 ≤ v.n) : v.OnlyUnwritten (hash64Len8To16 v) := by
  unfold hash64Len8To16
  iterate 2 refine View.onlyUnwritten_bind (View.fetch64_onlyUnwritten (by omega)) fun _ => ?_
  exact View.onlyUnwritten_ok _

theorem hash64Len1To3_onlyUnwritten (h : 0 < v.n) : v.OnlyUnwritten (hash64Len1To3 v) := by
  have hs : v.n >>> 1 = v.n / 2 := Nat.shiftRight_one v.n
  unfold hash64Len1To3
  iterate 3 refine View.onlyUnwritten_bind (View.byte_onlyUnwritten (by omega)) fun _ => ?_
  exact View.onlyUnwritten_ok _

theorem hash64Len4To7_onlyUnwritten (h : 4 ≤ v.n) : v.OnlyUnwritten (hash64Len4To7 v) := by
  unfold hash64Len4To7
  iterate 2 refine View.onlyUnwritten_bind (View.fetch32_onlyUnwritten (by omega)) fun _ => ?_
  exact View.onlyUnwritten_ok _

theorem hash64Len0To16_onlyUnwritten : v.OnlyUnwritten (hash64Len0To16 v) := by
  unfold hash64Len0To16
  split
  · exact hash64Len8To16_onlyUnwritten ‹_›
  · split
    · exact hash64Len4To7_onlyUnwritten ‹_›
    · split
      · exact hash64Len1To3_onlyUnwritten ‹_›
      · exact View.onlyUnwritten_ok _

theorem hash64Len17To32_onlyUnwritten (h : 17 ≤ v.n) : v.OnlyUnwritten (hash64Len17To32 v) := by
  unfold hash64Len17To32
  iterate 4 refine View.onlyUnwritten_bind (View.fetch64_onlyUnwritten (by omega)) fun _ => ?_
  exact View.onlyUnwritten_ok _

theorem hash64Len33To64_onlyUnwritten (h : 33 ≤ v.n) : v.OnlyUnwritten (hash64Len33To64 v) := by
  unfold hash64Len33To64
  iterate 8 refine View.onlyUnwritten_bind (View.fetch64_onlyUnwritten (by omega)) fun _ => ?_
  exact View.onlyUnwritten_ok _

theorem hash64Tail_onlyUnwritten (h : 65 ≤ v.n) : v.OnlyUnwritten (hash64Tail v) := by
  unfold hash64Tail
  iterate 5 refine View.onlyUnwritten_bind (View.fetch64_onlyUnwritten (by omega)) fun _ => ?_
  iterate 2 refine View.onlyUnwritten_bind (View.weakHashAt_onlyUnwritten (by omega) _ _) fun _ => ?_
  refine View.onlyUnwritten_bind (View.fetch64_onlyUnwritten (by omega)) fun _ => ?_
  exact View.onlyUnwritten_ok _

theorem chunk64_onlyUnwritten {pos : Nat} (h : pos + 64 ≤ v.n) (r : Regs64) : v.OnlyUnwritten (chunk64 v pos r) := by
  unfold chunk64
  iterate 3 refine View.onlyUnwritten_bind (View.fetch64_onlyUnwritten (by omega)) fun _ => ?_
  refine View.onlyUnwritten_bind (View.weakHashAt_onlyUnwritten (by omega) _ _) fun _ => ?_
  refine View.onlyUnwritten_bind (View.fetch64_onlyUnwritten (by omega)) fun _ => ?_
  refine View.onlyUnwritten_bind (View.weakHashAt_onlyUnwritten (by omega) _ _) fun _ => ?_
  exact View.onlyUnwritten_ok _

theorem hash64Loop_onlyUnwritten (k : Nat) : ∀ pos r, pos + 64 * k ≤ v.n → v.OnlyUnwritten (hash64Loop v k pos r) := by
  induction k with
  | zero => intro pos r _; exact View.onlyUnwritten_ok _
  | succ k ih =>
    intro pos r h
    exact View.onlyUnwritten_bind (chunk64_onlyUnwritten (by omega) r) fun _ => ih _ _ (by omega)

theorem hash64Long_onlyUnwritten (h : 65 ≤ v.n) : v.OnlyUnwritten (hash64Long v) := by
  have hc : 0 + 64 * ((v.n - 1) / 64) ≤ v.n := by omega
  unfold hash64Long
  refine View.onlyUnwritten_bind (hash64Tail_onlyUnwritten h) fun r => ?_
  exact View.onlyUnwritten_bind (hash64Loop_onlyUnwritten _ _ r hc) fun _ => View.onlyUnwritten_ok _

/-- The 64-bit hash raises no fault, whatever the length (R39). -/
theorem digest64_onlyUnwritten (v : View) : v.OnlyUnwritten (digest64 v) := by
  unfold digest64
  split
  · exact hash64Len0To16_onlyUnwritten
  · split
    · exact hash64Len17To32_onlyUnwritten (by omega)
    · split
      · exact hash64Len33To64_onlyUnwritten (by omega)
      · exact hash64Long_onlyUnwritten (by omega)

/-- Nor do the seeded hash and a feed (R103, R107). -/
theorem hash64Seeded_onlyUnwritten (k : U64) (v : View) : v.OnlyUnwritten (hash64Seeded k v) :=
  View.onlyUnwritten_bind (digest64_onlyUnwritten v) fun _ => View.onlyUnwritten_ok _

theorem feedDigest_onlyUnwritten (ad : Option U64) (v : View) : v.OnlyUnwritten (feedDigest ad v) := by
  cases ad with
  | none => exact digest64_onlyUnwritten v
  | some k => exact hash64Seeded_onlyUnwritten k v

end hash64

end Sys2Proof.Machine
end

