-- ==== Sys2Proof/Laws/State.lean ====
section
/-! SUPPORT. One lemma per field per update of State, true by unfolding, so that no later proof unfolds an update.
Their proofs stand in parentheses so that `simp` cites them and leaves no comparison of two updates to the kernel, which
would evaluate the digest that an update carries. -/

namespace Sys2Proof.Machine

section setResult

@[simp] theorem State.setResult_params (s : State) (v : U64) : (s.setResult v).params = s.params := (rfl)
@[simp] theorem State.setResult_msg (s : State) (v : U64) : (s.setResult v).msg = s.msg := (rfl)
@[simp] theorem State.setResult_len (s : State) (v : U64) : (s.setResult v).len = s.len := (rfl)
@[simp] theorem State.setResult_seed (s : State) (v : U64) : (s.setResult v).seed = s.seed := (rfl)
@[simp] theorem State.setResult_result (s : State) (v : U64) : (s.setResult v).result = v := (rfl)
@[simp] theorem State.setResult_ad (s : State) (v : U64) : (s.setResult v).ad = s.ad := (rfl)
@[simp] theorem State.setResult_busy (s : State) (v : U64) : (s.setResult v).busy = s.busy := (rfl)
@[simp] theorem State.setResult_fault (s : State) (v : U64) : (s.setResult v).fault = s.fault := (rfl)
@[simp] theorem State.setResult_fcode (s : State) (v : U64) : (s.setResult v).fcode = s.fcode := (rfl)
@[simp] theorem State.setResult_pend (s : State) (v : U64) : (s.setResult v).pend = s.pend := (rfl)
@[simp] theorem State.setResult_inputs (s : State) (v : U64) : (s.setResult v).inputs = s.inputs := (rfl)
@[simp] theorem State.setResult_outputs (s : State) (v : U64) : (s.setResult v).outputs = s.outputs := (rfl)
@[simp] theorem State.setResult_draws (s : State) (v : U64) : (s.setResult v).draws = s.draws := (rfl)

end setResult

section setAd

@[simp] theorem State.setAd_params (s : State) (v : Option U64) : (s.setAd v).params = s.params := (rfl)
@[simp] theorem State.setAd_msg (s : State) (v : Option U64) : (s.setAd v).msg = s.msg := (rfl)
@[simp] theorem State.setAd_len (s : State) (v : Option U64) : (s.setAd v).len = s.len := (rfl)
@[simp] theorem State.setAd_seed (s : State) (v : Option U64) : (s.setAd v).seed = s.seed := (rfl)
@[simp] theorem State.setAd_result (s : State) (v : Option U64) : (s.setAd v).result = s.result := (rfl)
@[simp] theorem State.setAd_ad (s : State) (v : Option U64) : (s.setAd v).ad = v := (rfl)
@[simp] theorem State.setAd_busy (s : State) (v : Option U64) : (s.setAd v).busy = s.busy := (rfl)
@[simp] theorem State.setAd_fault (s : State) (v : Option U64) : (s.setAd v).fault = s.fault := (rfl)
@[simp] theorem State.setAd_fcode (s : State) (v : Option U64) : (s.setAd v).fcode = s.fcode := (rfl)
@[simp] theorem State.setAd_pend (s : State) (v : Option U64) : (s.setAd v).pend = s.pend := (rfl)
@[simp] theorem State.setAd_inputs (s : State) (v : Option U64) : (s.setAd v).inputs = s.inputs := (rfl)
@[simp] theorem State.setAd_outputs (s : State) (v : Option U64) : (s.setAd v).outputs = s.outputs := (rfl)
@[simp] theorem State.setAd_draws (s : State) (v : Option U64) : (s.setAd v).draws = s.draws := (rfl)

end setAd

section withInputs

@[simp] theorem State.withInputs_params (s : State) (xs : List Input) : (s.withInputs xs).params = s.params := (rfl)
@[simp] theorem State.withInputs_msg (s : State) (xs : List Input) : (s.withInputs xs).msg = s.msg := (rfl)
@[simp] theorem State.withInputs_len (s : State) (xs : List Input) : (s.withInputs xs).len = s.len := (rfl)
@[simp] theorem State.withInputs_seed (s : State) (xs : List Input) : (s.withInputs xs).seed = s.seed := (rfl)
@[simp] theorem State.withInputs_result (s : State) (xs : List Input) : (s.withInputs xs).result = s.result := (rfl)
@[simp] theorem State.withInputs_ad (s : State) (xs : List Input) : (s.withInputs xs).ad = s.ad := (rfl)
@[simp] theorem State.withInputs_busy (s : State) (xs : List Input) : (s.withInputs xs).busy = s.busy := (rfl)
@[simp] theorem State.withInputs_fault (s : State) (xs : List Input) : (s.withInputs xs).fault = s.fault := (rfl)
@[simp] theorem State.withInputs_fcode (s : State) (xs : List Input) : (s.withInputs xs).fcode = s.fcode := (rfl)
@[simp] theorem State.withInputs_pend (s : State) (xs : List Input) : (s.withInputs xs).pend = s.pend := (rfl)
@[simp] theorem State.withInputs_inputs (s : State) (xs : List Input) : (s.withInputs xs).inputs = xs := (rfl)
@[simp] theorem State.withInputs_outputs (s : State) (xs : List Input) : (s.withInputs xs).outputs = s.outputs := (rfl)
@[simp] theorem State.withInputs_draws (s : State) (xs : List Input) : (s.withInputs xs).draws = s.draws := (rfl)

end withInputs

section retire

@[simp] theorem State.retire_params (s : State) : s.retire.params = s.params := (rfl)
@[simp] theorem State.retire_msg (s : State) : s.retire.msg = s.msg := (rfl)
@[simp] theorem State.retire_len (s : State) : s.retire.len = s.len := (rfl)
@[simp] theorem State.retire_seed (s : State) : s.retire.seed = s.seed := (rfl)
@[simp] theorem State.retire_result (s : State) : s.retire.result = s.result := (rfl)
@[simp] theorem State.retire_ad (s : State) : s.retire.ad = s.ad := (rfl)
@[simp] theorem State.retire_busy (s : State) : s.retire.busy = false := (rfl)
@[simp] theorem State.retire_fault (s : State) : s.retire.fault = s.fault := (rfl)
@[simp] theorem State.retire_fcode (s : State) : s.retire.fcode = s.fcode := (rfl)
@[simp] theorem State.retire_pend (s : State) : s.retire.pend = Config.idlePend s.draws := (rfl)
@[simp] theorem State.retire_inputs (s : State) : s.retire.inputs = s.inputs := (rfl)
@[simp] theorem State.retire_outputs (s : State) : s.retire.outputs = s.outputs := (rfl)
@[simp] theorem State.retire_draws (s : State) : s.retire.draws = s.draws + 1 := (rfl)

end retire

section raiseFault

@[simp] theorem State.raiseFault_params (s : State) (c : FaultCause) : (s.raiseFault c).params = s.params := (rfl)
@[simp] theorem State.raiseFault_msg (s : State) (c : FaultCause) : (s.raiseFault c).msg = s.msg := (rfl)
@[simp] theorem State.raiseFault_len (s : State) (c : FaultCause) : (s.raiseFault c).len = s.len := (rfl)
@[simp] theorem State.raiseFault_seed (s : State) (c : FaultCause) : (s.raiseFault c).seed = s.seed := (rfl)
@[simp] theorem State.raiseFault_result (s : State) (c : FaultCause) : (s.raiseFault c).result = s.result := (rfl)
@[simp] theorem State.raiseFault_ad (s : State) (c : FaultCause) : (s.raiseFault c).ad = s.ad := (rfl)
@[simp] theorem State.raiseFault_busy (s : State) (c : FaultCause) : (s.raiseFault c).busy = false := (rfl)
@[simp] theorem State.raiseFault_fault (s : State) (c : FaultCause) : (s.raiseFault c).fault = true := (rfl)
@[simp] theorem State.raiseFault_fcode (s : State) (c : FaultCause) : (s.raiseFault c).fcode = c.code := (rfl)
@[simp] theorem State.raiseFault_pend (s : State) (c : FaultCause) : (s.raiseFault c).pend = Config.idlePend s.draws := (rfl)
@[simp] theorem State.raiseFault_inputs (s : State) (c : FaultCause) : (s.raiseFault c).inputs = s.inputs := (rfl)
@[simp] theorem State.raiseFault_outputs (s : State) (c : FaultCause) : (s.raiseFault c).outputs = s.outputs := (rfl)
@[simp] theorem State.raiseFault_draws (s : State) (c : FaultCause) : (s.raiseFault c).draws = s.draws + 1 := (rfl)

end raiseFault

section applyReset

@[simp] theorem State.applyReset_params (s : State) : s.applyReset.params = s.params := (rfl)
@[simp] theorem State.applyReset_msg (s : State) : s.applyReset.msg = [] := (rfl)
@[simp] theorem State.applyReset_len (s : State) : s.applyReset.len = 0#32 := (rfl)
@[simp] theorem State.applyReset_seed (s : State) : s.applyReset.seed = 0#64 := (rfl)
@[simp] theorem State.applyReset_result (s : State) : s.applyReset.result = 0#64 := (rfl)
@[simp] theorem State.applyReset_ad (s : State) : s.applyReset.ad = none := (rfl)
@[simp] theorem State.applyReset_busy (s : State) : s.applyReset.busy = false := (rfl)
@[simp] theorem State.applyReset_fault (s : State) : s.applyReset.fault = false := (rfl)
@[simp] theorem State.applyReset_fcode (s : State) : s.applyReset.fcode = 0#4 := (rfl)
@[simp] theorem State.applyReset_pend (s : State) : s.applyReset.pend = 0#32 := (rfl)
@[simp] theorem State.applyReset_inputs (s : State) : s.applyReset.inputs = s.inputs := (rfl)
@[simp] theorem State.applyReset_outputs (s : State) : s.applyReset.outputs = s.outputs := (rfl)
@[simp] theorem State.applyReset_draws (s : State) : s.applyReset.draws = s.draws := (rfl)

end applyReset

section latch

@[simp] theorem State.latch_params (s : State) (w : U32) : (s.latch w).params = s.params := (rfl)
@[simp] theorem State.latch_msg (s : State) (w : U32) : (s.latch w).msg = s.msg := (rfl)
@[simp] theorem State.latch_len (s : State) (w : U32) : (s.latch w).len = s.len := (rfl)
@[simp] theorem State.latch_seed (s : State) (w : U32) : (s.latch w).seed = s.seed := (rfl)
@[simp] theorem State.latch_result (s : State) (w : U32) : (s.latch w).result = s.result := (rfl)
@[simp] theorem State.latch_ad (s : State) (w : U32) : (s.latch w).ad = s.ad := (rfl)
@[simp] theorem State.latch_busy (s : State) (w : U32) : (s.latch w).busy = true := (rfl)
@[simp] theorem State.latch_fault (s : State) (w : U32) : (s.latch w).fault = s.fault := (rfl)
@[simp] theorem State.latch_fcode (s : State) (w : U32) : (s.latch w).fcode = s.fcode := (rfl)
@[simp] theorem State.latch_pend (s : State) (w : U32) : (s.latch w).pend = w := (rfl)
@[simp] theorem State.latch_inputs (s : State) (w : U32) : (s.latch w).inputs = if engineIsNext s.inputs then s.inputs else .engine :: s.inputs := (rfl)
@[simp] theorem State.latch_outputs (s : State) (w : U32) : (s.latch w).outputs = s.outputs := (rfl)
@[simp] theorem State.latch_draws (s : State) (w : U32) : (s.latch w).draws = s.draws := (rfl)

end latch

section hostRead

@[simp] theorem State.hostRead_params (s : State) (w : Width) (t : Target) : (s.hostRead w t).params = s.params := (rfl)
@[simp] theorem State.hostRead_msg (s : State) (w : Width) (t : Target) : (s.hostRead w t).msg = s.msg := (rfl)
@[simp] theorem State.hostRead_len (s : State) (w : Width) (t : Target) : (s.hostRead w t).len = s.len := (rfl)
@[simp] theorem State.hostRead_seed (s : State) (w : Width) (t : Target) : (s.hostRead w t).seed = s.seed := (rfl)
@[simp] theorem State.hostRead_result (s : State) (w : Width) (t : Target) : (s.hostRead w t).result = s.result := (rfl)
@[simp] theorem State.hostRead_ad (s : State) (w : Width) (t : Target) : (s.hostRead w t).ad = s.ad := (rfl)
@[simp] theorem State.hostRead_busy (s : State) (w : Width) (t : Target) : (s.hostRead w t).busy = s.busy := (rfl)
@[simp] theorem State.hostRead_fault (s : State) (w : Width) (t : Target) : (s.hostRead w t).fault = s.fault := (rfl)
@[simp] theorem State.hostRead_fcode (s : State) (w : Width) (t : Target) : (s.hostRead w t).fcode = s.fcode := (rfl)
@[simp] theorem State.hostRead_pend (s : State) (w : Width) (t : Target) : (s.hostRead w t).pend = s.pend := (rfl)
@[simp] theorem State.hostRead_inputs (s : State) (w : Width) (t : Target) : (s.hostRead w t).inputs = s.inputs := (rfl)
@[simp] theorem State.hostRead_outputs (s : State) (w : Width) (t : Target) : (s.hostRead w t).outputs = s.readData w t :: s.outputs := (rfl)
@[simp] theorem State.hostRead_draws (s : State) (w : Width) (t : Target) : (s.hostRead w t).draws = s.draws + t.draws := (rfl)

end hostRead

section issue

@[simp] theorem State.issue_params (s : State) (w : U32) : (s.issue w).params = s.params := by
  unfold State.issue; split <;> rfl
@[simp] theorem State.issue_msg (s : State) (w : U32) : (s.issue w).msg = s.msg := by
  unfold State.issue; split <;> rfl
@[simp] theorem State.issue_len (s : State) (w : U32) : (s.issue w).len = s.len := by
  unfold State.issue; split <;> rfl
@[simp] theorem State.issue_seed (s : State) (w : U32) : (s.issue w).seed = s.seed := by
  unfold State.issue; split <;> rfl
@[simp] theorem State.issue_result (s : State) (w : U32) : (s.issue w).result = s.result := by
  unfold State.issue; split <;> rfl
@[simp] theorem State.issue_ad (s : State) (w : U32) : (s.issue w).ad = s.ad := by
  unfold State.issue; split <;> rfl
@[simp] theorem State.issue_busy (s : State) (w : U32) : (s.issue w).busy = if s.fault then s.busy else true := by
  unfold State.issue; split <;> rfl
@[simp] theorem State.issue_fault (s : State) (w : U32) : (s.issue w).fault = s.fault := by
  unfold State.issue; split <;> rfl
@[simp] theorem State.issue_fcode (s : State) (w : U32) : (s.issue w).fcode = s.fcode := by
  unfold State.issue; split <;> rfl
@[simp] theorem State.issue_pend (s : State) (w : U32) : (s.issue w).pend = if s.fault then s.pend else w := by
  unfold State.issue; split <;> rfl
@[simp] theorem State.issue_inputs (s : State) (w : U32) : (s.issue w).inputs = s.inputs := by
  unfold State.issue; split <;> rfl
@[simp] theorem State.issue_outputs (s : State) (w : U32) : (s.issue w).outputs = s.outputs := by
  unfold State.issue; split <;> rfl
@[simp] theorem State.issue_draws (s : State) (w : U32) : (s.issue w).draws = s.draws := by
  unfold State.issue; split <;> rfl

end issue

section takeTurn

@[simp] theorem State.takeTurn_params (s : State) : s.takeTurn.params = s.params := by
  unfold State.takeTurn; split <;> rfl
@[simp] theorem State.takeTurn_msg (s : State) : s.takeTurn.msg = s.msg := by
  unfold State.takeTurn; split <;> rfl
@[simp] theorem State.takeTurn_len (s : State) : s.takeTurn.len = s.len := by
  unfold State.takeTurn; split <;> rfl
@[simp] theorem State.takeTurn_seed (s : State) : s.takeTurn.seed = s.seed := by
  unfold State.takeTurn; split <;> rfl
@[simp] theorem State.takeTurn_result (s : State) : s.takeTurn.result = s.result := by
  unfold State.takeTurn; split <;> rfl
@[simp] theorem State.takeTurn_ad (s : State) : s.takeTurn.ad = s.ad := by
  unfold State.takeTurn; split <;> rfl
@[simp] theorem State.takeTurn_busy (s : State) : s.takeTurn.busy = s.busy := by
  unfold State.takeTurn; split <;> rfl
@[simp] theorem State.takeTurn_fault (s : State) : s.takeTurn.fault = s.fault := by
  unfold State.takeTurn; split <;> rfl
@[simp] theorem State.takeTurn_fcode (s : State) : s.takeTurn.fcode = s.fcode := by
  unfold State.takeTurn; split <;> rfl
@[simp] theorem State.takeTurn_pend (s : State) : s.takeTurn.pend = s.pend := by
  unfold State.takeTurn; split <;> rfl
@[simp] theorem State.takeTurn_outputs (s : State) : s.takeTurn.outputs = s.outputs := by
  unfold State.takeTurn; split <;> rfl
@[simp] theorem State.takeTurn_draws (s : State) : s.takeTurn.draws = s.draws := by
  unfold State.takeTurn; split <;> rfl

end takeTurn

section hostWrite

/-- A host write changes only what its target names (10_state.md R27). -/
@[simp] theorem State.hostWrite_params (s : State) (w : Width) (d : U32) (t : Target) : (s.hostWrite w d t).params = s.params := by
  cases t <;> first | rfl | exact State.issue_params s d | (cases w <;> rfl)
@[simp] theorem State.hostWrite_result (s : State) (w : Width) (d : U32) (t : Target) : (s.hostWrite w d t).result = s.result := by
  cases t <;> first | rfl | exact State.issue_result s d | (cases w <;> rfl)
@[simp] theorem State.hostWrite_ad (s : State) (w : Width) (d : U32) (t : Target) : (s.hostWrite w d t).ad = s.ad := by
  cases t <;> first | rfl | exact State.issue_ad s d | (cases w <;> rfl)
@[simp] theorem State.hostWrite_fault (s : State) (w : Width) (d : U32) (t : Target) : (s.hostWrite w d t).fault = s.fault := by
  cases t <;> first | rfl | exact State.issue_fault s d | (cases w <;> rfl)
@[simp] theorem State.hostWrite_fcode (s : State) (w : Width) (d : U32) (t : Target) : (s.hostWrite w d t).fcode = s.fcode := by
  cases t <;> first | rfl | exact State.issue_fcode s d | (cases w <;> rfl)
@[simp] theorem State.hostWrite_inputs (s : State) (w : Width) (d : U32) (t : Target) : (s.hostWrite w d t).inputs = s.inputs := by
  cases t <;> first | rfl | exact State.issue_inputs s d | (cases w <;> rfl)
@[simp] theorem State.hostWrite_outputs (s : State) (w : Width) (d : U32) (t : Target) : (s.hostWrite w d t).outputs = s.outputs := by
  cases t <;> first | rfl | exact State.issue_outputs s d | (cases w <;> rfl)
@[simp] theorem State.hostWrite_draws (s : State) (w : Width) (d : U32) (t : Target) : (s.hostWrite w d t).draws = s.draws := by
  cases t <;> first | rfl | exact State.issue_draws s d | (cases w <;> rfl)

end hostWrite

/-- Updates of different fields commute, and the later of two equal updates wins. -/
@[simp] theorem State.withInputs_withInputs (s : State) (xs ys : List Input) :
    (s.withInputs xs).withInputs ys = s.withInputs ys := (rfl)

@[simp] theorem State.withInputs_self (s : State) : s.withInputs s.inputs = s := (rfl)

theorem State.retire_withInputs (s : State) (xs : List Input) :
    (s.withInputs xs).retire = s.retire.withInputs xs := (rfl)

theorem State.setResult_withInputs (s : State) (xs : List Input) (v : U64) :
    (s.withInputs xs).setResult v = (s.setResult v).withInputs xs := (rfl)

theorem State.setAd_withInputs (s : State) (xs : List Input) (v : Option U64) :
    (s.withInputs xs).setAd v = (s.setAd v).withInputs xs := (rfl)

theorem State.raiseFault_withInputs (s : State) (xs : List Input) (c : FaultCause) :
    (s.withInputs xs).raiseFault c = (s.raiseFault c).withInputs xs := (rfl)

@[simp] theorem State.view_withInputs (s : State) (xs : List Input) : (s.withInputs xs).view = s.view := (rfl)

@[simp] theorem State.view_takeTurn (s : State) : s.takeTurn.view = s.view := by
  unfold State.takeTurn; split <;> rfl

end Sys2Proof.Machine
end

