-- ==== Sys2Proof/Laws/Command.lean ====
section
/-! SUPPORT. What a command can do, once (30_encoding.md R56, 60_exceptions.md R125): one lemma per shared operation, and
one inversion lemma for `exec` that everything about steps follows from. -/

namespace Sys2Proof.Machine

section messageCommand

variable {α : Type} {compute : View → Except Halt α} {commit : α → State → State} {s : State}

theorem messageCommand_lengthRange (h : s.params.bufBytes < s.len.toNat) :
    messageCommand compute commit s = .next (s.raiseFault .lengthRange) := by
  simp [messageCommand, h]

theorem messageCommand_ok (h : s.len.toNat ≤ s.params.bufBytes) {x : α} (hx : compute s.view = .ok x) :
    messageCommand compute commit s = .next (commit x s).retire := by
  simp [messageCommand, Nat.not_lt.mpr h, hx]

/-- The ways a message-reading command can end, for a computation that makes no read outside the view. -/
theorem messageCommand_cases (hq : s.view.OnlyUnwritten (compute s.view)) :
    (s.params.bufBytes < s.len.toNat ∧ messageCommand compute commit s = .next (s.raiseFault .lengthRange)) ∨
    (s.len.toNat ≤ s.params.bufBytes ∧ ∃ x, compute s.view = .ok x ∧
      messageCommand compute commit s = .next (commit x s).retire) ∨
    (s.len.toNat ≤ s.params.bufBytes ∧ ∃ a, a < s.len.toNat ∧ s.byteAt a = none ∧
      compute s.view = .error (.stuck (.unwrittenByte a)) ∧
      messageCommand compute commit s = .fault (.unwrittenByte a)) := by
  by_cases hl : s.params.bufBytes < s.len.toNat
  · exact .inl ⟨hl, messageCommand_lengthRange hl⟩
  · have hl' := Nat.not_lt.mp hl
    cases hc : compute s.view with
    | ok x => exact .inr (.inl ⟨hl', x, rfl, messageCommand_ok hl' hc⟩)
    | error e =>
      obtain ⟨a, rfl, ha, hr⟩ := hq e hc
      exact .inr (.inr ⟨hl', a, ha, hr, rfl, by simp [messageCommand, hl, hc]⟩)

end messageCommand

/-- Everything a command's rule can do: LENGTH_RANGE; a new `RESULT` or `AD` and the end of the command; or, in the model
only, a stop at an unwritten byte of the message. -/
theorem exec_cases (i : Instr) (s : State) :
    (readsMessage i = true ∧ s.params.bufBytes < s.len.toNat ∧ exec i s = .next (s.raiseFault .lengthRange)) ∨
    ((readsMessage i = true → s.len.toNat ≤ s.params.bufBytes) ∧ ∃ r a,
      (writesResult i = false → r = s.result) ∧ (writesAdapter i = false → a = s.ad) ∧
      exec i s = .next ((s.setResult r).setAd a).retire) ∨
    (readsMessage i = true ∧ s.len.toNat ≤ s.params.bufBytes ∧ ∃ a, a < s.len.toNat ∧ s.byteAt a = none ∧
      exec i s = .fault (.unwrittenByte a)) := by
  cases i with
  | hash32 =>
    rcases messageCommand_cases (commit := fun d s => s.setResult (d.setWidth 64)) (digest32_onlyUnwritten s.view) with
      ⟨hl, h⟩ | ⟨hl, x, -, h⟩ | ⟨hl, a, ha, hr, -, h⟩
    · exact .inl ⟨rfl, hl, h⟩
    · exact .inr (.inl ⟨fun _ => hl, x.setWidth 64, s.ad, by simp [writesResult], fun _ => rfl, h⟩)
    · exact .inr (.inr ⟨rfl, hl, a, ha, hr, h⟩)
  | hash64 =>
    rcases messageCommand_cases (commit := fun d s => s.setResult d) (digest64_onlyUnwritten s.view) with
      ⟨hl, h⟩ | ⟨hl, x, -, h⟩ | ⟨hl, a, ha, hr, -, h⟩
    · exact .inl ⟨rfl, hl, h⟩
    · exact .inr (.inl ⟨fun _ => hl, x, s.ad, by simp [writesResult], fun _ => rfl, h⟩)
    · exact .inr (.inr ⟨rfl, hl, a, ha, hr, h⟩)
  | hash64s =>
    rcases messageCommand_cases (commit := fun d s => s.setResult d) (hash64Seeded_onlyUnwritten s.seed s.view) with
      ⟨hl, h⟩ | ⟨hl, x, -, h⟩ | ⟨hl, a, ha, hr, -, h⟩
    · exact .inl ⟨rfl, hl, h⟩
    · exact .inr (.inl ⟨fun _ => hl, x, s.ad, by simp [writesResult], fun _ => rfl, h⟩)
    · exact .inr (.inr ⟨rfl, hl, a, ha, hr, h⟩)
  | adFeed =>
    rcases messageCommand_cases (commit := fun d s => s.setAd (some d)) (feedDigest_onlyUnwritten s.ad s.view) with
      ⟨hl, h⟩ | ⟨hl, x, -, h⟩ | ⟨hl, a, ha, hr, -, h⟩
    · exact .inl ⟨rfl, hl, h⟩
    · exact .inr (.inl ⟨fun _ => hl, s.result, some x, fun _ => rfl, by simp [writesAdapter], h⟩)
    · exact .inr (.inr ⟨rfl, hl, a, ha, hr, h⟩)
  | adNew =>
    exact .inr (.inl ⟨by simp [readsMessage], s.result, none, fun _ => rfl, by simp [writesAdapter], rfl⟩)
  | adSeed =>
    exact .inr (.inl ⟨by simp [readsMessage], s.result, some s.seed, fun _ => rfl, by simp [writesAdapter], rfl⟩)
  | adFin =>
    exact .inr (.inl ⟨by simp [readsMessage], heldValue s.ad, s.ad, by simp [writesResult], fun _ => rfl, rfl⟩)

/-- What `exec` does not touch, in the one form the other laws cite. -/
theorem exec_next_frame {i : Instr} {s t : State} (h : exec i s = .next t) :
    t.params = s.params ∧ t.msg = s.msg ∧ t.len = s.len ∧ t.seed = s.seed ∧ t.inputs = s.inputs ∧
      t.outputs = s.outputs ∧ t.busy = false := by
  rcases exec_cases i s with ⟨-, -, h'⟩ | ⟨-, r, a, -, -, h'⟩ | ⟨-, -, a, -, -, h'⟩ <;> rw [h'] at h <;> cases h <;>
    exact ⟨rfl, rfl, rfl, rfl, rfl, rfl, rfl⟩

/-- A command that does not meet LENGTH_RANGE ends without a fault. -/
theorem exec_completed {i : Instr} {s t : State} (h : exec i s = .next t)
    (hl : readsMessage i = true → s.len.toNat ≤ s.params.bufBytes) : t.CompletedFrom s := by
  rcases exec_cases i s with ⟨hm, hl', -⟩ | ⟨-, r, a, -, -, h'⟩ | ⟨-, -, a, -, -, h'⟩
  · exact absurd (hl hm) (Nat.not_le.mpr hl')
  · rw [h'] at h; cases h; exact ⟨rfl, rfl, rfl, rfl, rfl, rfl, rfl, rfl, rfl⟩
  · rw [h'] at h; cases h

end Sys2Proof.Machine
end

