-- ==== Sys2Proof/Laws/Congr.lean ====
section
/-! SUPPORT. The digests depend on the length and on the message bytes below it, and on nothing else of the view: not on
the access discipline, not on bytes at or beyond the length (20_memory.md R35, R43). One lemma per read and per bucket. -/

namespace Sys2Proof.Machine

/-- Two views with one length and one message: the same bytes, written or not, below the length. -/
structure View.SameMessage (v w : View) : Prop where
  n : v.n = w.n
  read : ∀ a, a < v.n → v.msg.read a = w.msg.read a

section reads

variable {v w : View}

theorem View.SameMessage.cell (h : v.SameMessage w) {a : Nat} (ha : a < v.n) : v.cell a = w.cell a := by
  rw [View.cell, View.cell, h.read a ha]

theorem View.SameMessage.bound (h : v.SameMessage w) {o k : Nat} (ho : o + k ≤ v.n) : v.bound o k = w.bound o k := by
  rw [View.bound_ok ho, View.bound_ok (h.n ▸ ho)]

theorem View.SameMessage.byte (h : v.SameMessage w) {o : Nat} (ho : o + 1 ≤ v.n) : v.byte o = w.byte o := by
  rw [View.byte, View.byte, h.bound ho, h.cell (by omega)]

theorem View.SameMessage.fetch32 (h : v.SameMessage w) {o : Nat} (ho : o + 4 ≤ v.n) : v.fetch32 o = w.fetch32 o := by
  rw [View.fetch32, View.fetch32, h.bound ho, h.cell (by omega), h.cell (by omega), h.cell (by omega), h.cell (by omega)]

theorem View.SameMessage.fetch64 (h : v.SameMessage w) {o : Nat} (ho : o + 8 ≤ v.n) : v.fetch64 o = w.fetch64 o := by
  rw [View.fetch64, View.fetch64, h.bound ho, h.cell (by omega), h.cell (by omega), h.cell (by omega), h.cell (by omega),
    h.cell (by omega), h.cell (by omega), h.cell (by omega), h.cell (by omega)]

theorem View.SameMessage.weakHashAt (h : v.SameMessage w) {p : Nat} (hp : p + 32 ≤ v.n) (a b : U64) :
    v.weakHashAt p a b = w.weakHashAt p a b := by
  rw [View.weakHashAt, View.weakHashAt, h.fetch64 (by omega), h.fetch64 (by omega), h.fetch64 (by omega),
    h.fetch64 (by omega)]

theorem View.SameMessage.n32 (h : v.SameMessage w) : v.n32 = w.n32 := by rw [View.n32, View.n32, h.n]

theorem View.SameMessage.n64 (h : v.SameMessage w) : v.n64 = w.n64 := by rw [View.n64, View.n64, h.n]

theorem View.SameMessage.mul64 (h : v.SameMessage w) : v.mul64 = w.mul64 := by rw [View.mul64, View.mul64, h.n64]

end reads

section hash32

variable {v w : View} (h : v.SameMessage w)
include h

theorem foldBytes32_congr (k : Nat) : ∀ i b c, i + k ≤ v.n → foldBytes32 v k i b c = foldBytes32 w k i b c := by
  induction k with
  | zero => intro i b c _; rfl
  | succ k ih =>
    intro i b c hi
    rw [foldBytes32, foldBytes32, h.byte (by omega)]
    exact bind_congr fun x => ih _ _ _ (by omega)

theorem hash32Loop_congr (k : Nat) : ∀ pos r, pos + 20 * k ≤ v.n → hash32Loop v k pos r = hash32Loop w k pos r := by
  induction k with
  | zero => intro pos r _; rfl
  | succ k ih =>
    intro pos r hp
    rw [hash32Loop, hash32Loop, h.fetch32 (by omega), h.fetch32 (by omega), h.fetch32 (by omega), h.fetch32 (by omega),
      h.fetch32 (by omega)]
    iterate 5 refine bind_congr fun _ => ?_
    exact ih _ _ (by omega)

theorem digest32_congr : digest32 v = digest32 w := by
  have hs : v.n >>> 1 = v.n / 2 := Nat.shiftRight_one v.n
  unfold digest32
  rw [← h.n]
  split
  · rw [hash32Len0To4, hash32Len0To4, ← h.n, h.n32, foldBytes32_congr h _ _ _ _ (by omega)]
  · split
    · have hmid : (v.n >>> 1) &&& 4 ≤ 4 := Nat.and_le_right
      have hmid0 : v.n < 8 → (v.n >>> 1) &&& 4 = 0 := by
        intro h; generalize v.n = n at *
        interval_cases n <;> rfl
      have hm : ((v.n >>> 1) &&& 4) + 4 ≤ v.n := by
        by_cases h8 : v.n < 8
        · rw [hmid0 h8]; omega
        · omega
      rw [hash32Len5To12, hash32Len5To12, ← h.n, h.n32, h.fetch32 (by omega), h.fetch32 (by omega), h.fetch32 hm]
    · split
      · rw [hash32Len13To24, hash32Len13To24, ← h.n, h.n32, h.fetch32 (by omega), h.fetch32 (by omega),
          h.fetch32 (by omega), h.fetch32 (by omega), h.fetch32 (by omega), h.fetch32 (by omega)]
      · rw [hash32Long, hash32Long, hash32Tail, hash32Tail, ← h.n, h.n32, h.fetch32 (by omega), h.fetch32 (by omega),
          h.fetch32 (by omega), h.fetch32 (by omega), h.fetch32 (by omega)]
        refine bind_congr fun r => ?_
        rw [hash32Loop_congr h _ _ r (by omega)]

end hash32

section hash64

variable {v w : View} (h : v.SameMessage w)
include h

theorem chunk64_congr {pos : Nat} (hp : pos + 64 ≤ v.n) (r : Regs64) : chunk64 v pos r = chunk64 w pos r := by
  unfold chunk64
  simp only [h.weakHashAt (show pos + 32 ≤ v.n by omega), h.weakHashAt (show pos + 32 + 32 ≤ v.n by omega)]
  rw [h.fetch64 (by omega), h.fetch64 (by omega), h.fetch64 (by omega), h.fetch64 (by omega)]

theorem hash64Loop_congr (k : Nat) : ∀ pos r, pos + 64 * k ≤ v.n → hash64Loop v k pos r = hash64Loop w k pos r := by
  induction k with
  | zero => intro pos r _; rfl
  | succ k ih =>
    intro pos r hp
    rw [hash64Loop, hash64Loop, chunk64_congr h (by omega)]
    exact bind_congr fun r => ih _ _ (by omega)

theorem hash64Tail_congr (hn : 65 ≤ v.n) : hash64Tail v = hash64Tail w := by
  unfold hash64Tail
  simp only [← h.n, h.n64, h.weakHashAt (show v.n - 64 + 32 ≤ v.n by omega),
    h.weakHashAt (show v.n - 32 + 32 ≤ v.n by omega)]
  rw [h.fetch64 (by omega), h.fetch64 (by omega), h.fetch64 (by omega), h.fetch64 (by omega), h.fetch64 (by omega),
    h.fetch64 (by omega)]

theorem hash64Len0To16_congr : hash64Len0To16 v = hash64Len0To16 w := by
  have hs : v.n >>> 1 = v.n / 2 := Nat.shiftRight_one v.n
  unfold hash64Len0To16
  rw [← h.n]
  split
  · rw [hash64Len8To16, hash64Len8To16, ← h.n, h.mul64, h.fetch64 (by omega), h.fetch64 (by omega)]
  · split
    · rw [hash64Len4To7, hash64Len4To7, ← h.n, h.n64, h.mul64, h.fetch32 (by omega), h.fetch32 (by omega)]
    · split
      · rw [hash64Len1To3, hash64Len1To3, ← h.n, h.byte (by omega), h.byte (by omega), h.byte (by omega)]
      · rfl

theorem digest64_congr : digest64 v = digest64 w := by
  unfold digest64
  rw [← h.n]
  split
  · exact hash64Len0To16_congr h
  · split
    · rw [hash64Len17To32, hash64Len17To32, ← h.n, h.mul64, h.fetch64 (by omega), h.fetch64 (by omega),
        h.fetch64 (by omega), h.fetch64 (by omega)]
    · split
      · rw [hash64Len33To64, hash64Len33To64, ← h.n, h.mul64, h.fetch64 (by omega), h.fetch64 (by omega),
          h.fetch64 (by omega), h.fetch64 (by omega), h.fetch64 (by omega), h.fetch64 (by omega), h.fetch64 (by omega),
          h.fetch64 (by omega)]
      · rw [hash64Long, hash64Long, hash64Tail_congr h (by omega), ← h.n]
        refine bind_congr fun r => ?_
        rw [hash64Loop_congr h _ _ r (by omega)]

theorem hash64Seeded_congr (k : U64) : hash64Seeded k v = hash64Seeded k w := by
  rw [hash64Seeded, hash64Seeded, digest64_congr h]

theorem feedDigest_congr (ad : Option U64) : feedDigest ad v = feedDigest ad w := by
  cases ad with
  | none => exact digest64_congr h
  | some k => exact hash64Seeded_congr h k

end hash64

end Sys2Proof.Machine
end

