-- ==== Sys2Proof/Laws/Coverage.lean ====
section
/-! SUPPORT. Every byte of the message is read by its bucket (the reads that 20_memory.md R39 lists): a digest can be computed only if the whole
message is written. -/

namespace Sys2Proof.Machine

variable {v : View}

theorem ok_of_bind_ok {α β : Type} {x : Except Halt α} {f : α → Except Halt β} {d : β} (h : (x >>= f) = .ok d) :
    ∃ a, x = .ok a ∧ f a = .ok d := by
  cases x with
  | ok a => exact ⟨a, rfl, h⟩
  | error e => cases h

/-- The `w` message bytes from `o` on are written. -/
abbrev View.Written (v : View) (o w : Nat) : Prop := ∀ a, o ≤ a → a < o + w → v.msg.read a ≠ none

theorem View.written_of_cell {a x} (h : v.cell a = .ok x) : v.msg.read a ≠ none := by
  unfold View.cell at h; split at h
  · next h' => simp [h']
  · cases h

theorem View.written_of_byte {o x} (h : v.byte o = .ok x) : v.Written o 1 := by
  obtain ⟨_, -, h⟩ := ok_of_bind_ok h
  intro a h1 h2; rw [show a = o by omega]; exact View.written_of_cell h

theorem View.written_of_fetch32 {o x} (h : v.fetch32 o = .ok x) : v.Written o 4 := by
  obtain ⟨_, -, h⟩ := ok_of_bind_ok h
  obtain ⟨_, h0, h⟩ := ok_of_bind_ok h
  obtain ⟨_, h1, h⟩ := ok_of_bind_ok h
  obtain ⟨_, h2, h⟩ := ok_of_bind_ok h
  obtain ⟨_, h3, h⟩ := ok_of_bind_ok h
  intro a ha hb
  obtain h|h|h|h : a = o ∨ a = o+1 ∨ a = o+2 ∨ a = o+3 := by omega
  all_goals subst h; apply View.written_of_cell; assumption

theorem View.written_of_fetch64 {o x} (h : v.fetch64 o = .ok x) : v.Written o 8 := by
  obtain ⟨_, -, h⟩ := ok_of_bind_ok h
  obtain ⟨_, h0, h⟩ := ok_of_bind_ok h
  obtain ⟨_, h1, h⟩ := ok_of_bind_ok h
  obtain ⟨_, h2, h⟩ := ok_of_bind_ok h
  obtain ⟨_, h3, h⟩ := ok_of_bind_ok h
  obtain ⟨_, h4, h⟩ := ok_of_bind_ok h
  obtain ⟨_, h5, h⟩ := ok_of_bind_ok h
  obtain ⟨_, h6, h⟩ := ok_of_bind_ok h
  obtain ⟨_, h7, h⟩ := ok_of_bind_ok h
  intro a ha hb
  obtain h|h|h|h|h|h|h|h : a = o ∨ a = o+1 ∨ a = o+2 ∨ a = o+3 ∨ a = o+4 ∨ a = o+5 ∨ a = o+6 ∨ a = o+7 := by omega
  all_goals subst h; apply View.written_of_cell; assumption

theorem View.written_of_weakHashAt {p x y d} (h : v.weakHashAt p x y = .ok d) : v.Written p 32 := by
  obtain ⟨_, h0, h⟩ := ok_of_bind_ok h
  obtain ⟨_, h1, h⟩ := ok_of_bind_ok h
  obtain ⟨_, h2, h⟩ := ok_of_bind_ok h
  obtain ⟨_, h3, h⟩ := ok_of_bind_ok h
  intro a ha hb
  obtain h|h|h|h : a < p + 8 ∨ (p + 8 ≤ a ∧ a < p + 16) ∨ (p + 16 ≤ a ∧ a < p + 24) ∨ p + 24 ≤ a := by omega
  · exact View.written_of_fetch64 h0 a (by omega) (by omega)
  · exact View.written_of_fetch64 h1 a (by omega) (by omega)
  · exact View.written_of_fetch64 h2 a (by omega) (by omega)
  · exact View.written_of_fetch64 h3 a (by omega) (by omega)

theorem written_of_foldBytes32 (k) : ∀ i b c d, foldBytes32 v k i b c = .ok d → v.Written i k := by
  induction k with
  | zero => intro i b c d _ a; omega
  | succ k ih =>
    intro i b c d h
    obtain ⟨_, h0, h⟩ := ok_of_bind_ok h
    intro a ha hb
    by_cases hai : a = i
    · exact View.written_of_byte h0 a (by omega) (by omega)
    · exact ih _ _ _ _ h a (by omega) (by omega)

theorem written_of_hash32Loop (k) : ∀ pos r d, hash32Loop v k pos r = .ok d → v.Written pos (20*k) := by
  induction k with
  | zero => intro i b c d _ a; omega
  | succ k ih =>
    intro pos r d h
    obtain ⟨_, h0, h⟩ := ok_of_bind_ok h
    obtain ⟨_, h1, h⟩ := ok_of_bind_ok h
    obtain ⟨_, h2, h⟩ := ok_of_bind_ok h
    obtain ⟨_, h3, h⟩ := ok_of_bind_ok h
    obtain ⟨_, h4, h⟩ := ok_of_bind_ok h
    intro a ha hb
    by_cases q0 : a < pos + 4; · exact View.written_of_fetch32 h0 a (by omega) (by omega)
    by_cases q1 : a < pos + 8; · exact View.written_of_fetch32 h1 a (by omega) (by omega)
    by_cases q2 : a < pos + 12; · exact View.written_of_fetch32 h2 a (by omega) (by omega)
    by_cases q3 : a < pos + 16; · exact View.written_of_fetch32 h3 a (by omega) (by omega)
    by_cases q4 : a < pos + 20; · exact View.written_of_fetch32 h4 a (by omega) (by omega)
    exact ih _ _ _ h a (by omega) (by omega)

theorem written_of_hash64Loop (k) : ∀ pos r d, hash64Loop v k pos r = .ok d → v.Written pos (64*k) := by
  induction k with
  | zero => intro i b c d _ a; omega
  | succ k ih =>
    intro pos r d h
    obtain ⟨_, hc, h⟩ := ok_of_bind_ok h
    obtain ⟨_, -, hc⟩ := ok_of_bind_ok hc
    obtain ⟨_, -, hc⟩ := ok_of_bind_ok hc
    obtain ⟨_, -, hc⟩ := ok_of_bind_ok hc
    obtain ⟨_, h1, hc⟩ := ok_of_bind_ok hc
    obtain ⟨_, -, hc⟩ := ok_of_bind_ok hc
    obtain ⟨_, h2, hc⟩ := ok_of_bind_ok hc
    intro a ha hb
    by_cases q0 : a < pos + 32; · exact View.written_of_weakHashAt h1 a (by omega) (by omega)
    by_cases q1 : a < pos + 64; · exact View.written_of_weakHashAt h2 a (by omega) (by omega)
    exact ih _ _ _ h a (by omega) (by omega)

/-- No bucket skips a byte: a digest that has been computed has read every byte of the message. -/
theorem written_of_digest32 {d} (h : digest32 v = .ok d) : v.Written 0 v.n := by
  have hs' : v.n >>> 1 = v.n / 2 := Nat.shiftRight_one _
  unfold digest32 at h
  split at h
  · obtain ⟨_, h0, h⟩ := ok_of_bind_ok h
    exact written_of_foldBytes32 _ _ _ _ _ h0
  · split at h
    · obtain ⟨_, h0, h⟩ := ok_of_bind_ok h
      obtain ⟨_, h1, h⟩ := ok_of_bind_ok h
      obtain ⟨_, h2, h⟩ := ok_of_bind_ok h
      have hm : (v.n >>> 1) &&& 4 = if v.n < 8 then 0 else 4 := by
        generalize v.n = n at *; interval_cases n <;> rfl
      rw [hm] at h2
      intro a ha hb
      by_cases q0 : a < 4; · exact View.written_of_fetch32 h0 a (by omega) (by omega)
      by_cases q1 : v.n - 4 ≤ a; · exact View.written_of_fetch32 h1 a (by omega) (by omega)
      exact View.written_of_fetch32 h2 a (by split <;> omega) (by split <;> omega)
    · split at h
      · unfold hash32Len13To24 at h; rw [hs'] at h
        obtain ⟨_, h0, h⟩ := ok_of_bind_ok h
        obtain ⟨_, h1, h⟩ := ok_of_bind_ok h
        obtain ⟨_, h2, h⟩ := ok_of_bind_ok h
        obtain ⟨_, h3, h⟩ := ok_of_bind_ok h
        obtain ⟨_, h4, h⟩ := ok_of_bind_ok h
        obtain ⟨_, h5, h⟩ := ok_of_bind_ok h
        intro a ha hb
        by_cases q : v.n / 2 - 4 ≤ a ∧ a < v.n / 2; · exact View.written_of_fetch32 h0 a (by omega) (by omega)
        by_cases q : 4 ≤ a ∧ a < 8; · exact View.written_of_fetch32 h1 a (by omega) (by omega)
        by_cases q : v.n - 8 ≤ a ∧ a < v.n - 4; · exact View.written_of_fetch32 h2 a (by omega) (by omega)
        by_cases q : v.n / 2 ≤ a ∧ a < v.n / 2 + 4; · exact View.written_of_fetch32 h3 a (by omega) (by omega)
        by_cases q : a < 4; · exact View.written_of_fetch32 h4 a (by omega) (by omega)
        exact View.written_of_fetch32 h5 a (by omega) (by omega)
      · obtain ⟨_, ht, h⟩ := ok_of_bind_ok h
        obtain ⟨_, hl, h⟩ := ok_of_bind_ok h
        obtain ⟨_, h0, ht⟩ := ok_of_bind_ok ht
        obtain ⟨_, h1, ht⟩ := ok_of_bind_ok ht
        obtain ⟨_, h2, ht⟩ := ok_of_bind_ok ht
        obtain ⟨_, h3, ht⟩ := ok_of_bind_ok ht
        obtain ⟨_, h4, ht⟩ := ok_of_bind_ok ht
        intro a ha hb
        by_cases q : a < 20 * ((v.n - 1)/20); · exact written_of_hash32Loop _ _ _ _ hl a (by omega) (by omega)
        by_cases q : v.n - 4 ≤ a; · exact View.written_of_fetch32 h0 a (by omega) (by omega)
        by_cases q : v.n - 8 ≤ a; · exact View.written_of_fetch32 h1 a (by omega) (by omega)
        by_cases q : v.n - 12 ≤ a; · exact View.written_of_fetch32 h3 a (by omega) (by omega)
        by_cases q : v.n - 16 ≤ a; · exact View.written_of_fetch32 h2 a (by omega) (by omega)
        exact View.written_of_fetch32 h4 a (by omega) (by omega)

theorem written_of_digest64 {d} (h : digest64 v = .ok d) : v.Written 0 v.n := by
  have hs' : v.n >>> 1 = v.n / 2 := Nat.shiftRight_one _
  unfold digest64 at h
  split at h
  · unfold hash64Len0To16 at h
    split at h
    · obtain ⟨_, h0, h⟩ := ok_of_bind_ok h
      obtain ⟨_, h1, h⟩ := ok_of_bind_ok h
      intro a ha hb
      by_cases q : a < 8; · exact View.written_of_fetch64 h0 a (by omega) (by omega)
      exact View.written_of_fetch64 h1 a (by omega) (by omega)
    · split at h
      · obtain ⟨_, h0, h⟩ := ok_of_bind_ok h
        obtain ⟨_, h1, h⟩ := ok_of_bind_ok h
        intro a ha hb
        by_cases q : a < 4; · exact View.written_of_fetch32 h0 a (by omega) (by omega)
        exact View.written_of_fetch32 h1 a (by omega) (by omega)
      · split at h
        · unfold hash64Len1To3 at h; rw [hs'] at h
          obtain ⟨_, h0, h⟩ := ok_of_bind_ok h
          obtain ⟨_, h1, h⟩ := ok_of_bind_ok h
          obtain ⟨_, h2, h⟩ := ok_of_bind_ok h
          intro a ha hb
          by_cases q : a = 0; · exact View.written_of_byte h0 a (by omega) (by omega)
          by_cases q : a = v.n - 1; · exact View.written_of_byte h2 a (by omega) (by omega)
          exact View.written_of_byte h1 a (by omega) (by omega)
        · intro a; omega
  · split at h
    · obtain ⟨_, h0, h⟩ := ok_of_bind_ok h
      obtain ⟨_, h1, h⟩ := ok_of_bind_ok h
      obtain ⟨_, h2, h⟩ := ok_of_bind_ok h
      obtain ⟨_, h3, h⟩ := ok_of_bind_ok h
      intro a ha hb
      by_cases q : a < 8; · exact View.written_of_fetch64 h0 a (by omega) (by omega)
      by_cases q : a < 16; · exact View.written_of_fetch64 h1 a (by omega) (by omega)
      by_cases q : v.n - 8 ≤ a; · exact View.written_of_fetch64 h2 a (by omega) (by omega)
      exact View.written_of_fetch64 h3 a (by omega) (by omega)
    · split at h
      · obtain ⟨_, h0, h⟩ := ok_of_bind_ok h
        obtain ⟨_, h1, h⟩ := ok_of_bind_ok h
        obtain ⟨_, h2, h⟩ := ok_of_bind_ok h
        obtain ⟨_, h3, h⟩ := ok_of_bind_ok h
        obtain ⟨_, h4, h⟩ := ok_of_bind_ok h
        obtain ⟨_, h5, h⟩ := ok_of_bind_ok h
        obtain ⟨_, h6, h⟩ := ok_of_bind_ok h
        obtain ⟨_, h7, h⟩ := ok_of_bind_ok h
        intro a ha hb
        by_cases q : a < 8; · exact View.written_of_fetch64 h0 a (by omega) (by omega)
        by_cases q : a < 16; · exact View.written_of_fetch64 h1 a (by omega) (by omega)
        by_cases q : a < 24; · exact View.written_of_fetch64 h4 a (by omega) (by omega)
        by_cases q : a < 32; · exact View.written_of_fetch64 h5 a (by omega) (by omega)
        by_cases q : v.n - 8 ≤ a; · exact View.written_of_fetch64 h6 a (by omega) (by omega)
        by_cases q : v.n - 16 ≤ a; · exact View.written_of_fetch64 h7 a (by omega) (by omega)
        by_cases q : v.n - 24 ≤ a; · exact View.written_of_fetch64 h2 a (by omega) (by omega)
        exact View.written_of_fetch64 h3 a (by omega) (by omega)
      · obtain ⟨_, ht, h⟩ := ok_of_bind_ok h
        obtain ⟨_, hl, h⟩ := ok_of_bind_ok h
        obtain ⟨_, h0, ht⟩ := ok_of_bind_ok ht
        obtain ⟨_, h1, ht⟩ := ok_of_bind_ok ht
        obtain ⟨_, h2, ht⟩ := ok_of_bind_ok ht
        obtain ⟨_, h3, ht⟩ := ok_of_bind_ok ht
        obtain ⟨_, h4, ht⟩ := ok_of_bind_ok ht
        obtain ⟨_, h5, ht⟩ := ok_of_bind_ok ht
        obtain ⟨_, h6, ht⟩ := ok_of_bind_ok ht
        intro a ha hb
        by_cases q : a < 64 * ((v.n - 1)/64); · exact written_of_hash64Loop _ _ _ _ hl a (by omega) (by omega)
        by_cases q : v.n - 32 ≤ a; · exact View.written_of_weakHashAt h6 a (by omega) (by omega)
        exact View.written_of_weakHashAt h5 a (by omega) (by omega)

theorem written_of_hash64Seeded {k d} (h : hash64Seeded k v = .ok d) : v.Written 0 v.n := by
  obtain ⟨_, h0, h⟩ := ok_of_bind_ok h
  exact written_of_digest64 h0

theorem written_of_feedDigest {k d} (h : feedDigest k v = .ok d) : v.Written 0 v.n := by
  cases k
  · exact written_of_digest64 h
  · exact written_of_hash64Seeded h

end Sys2Proof.Machine
end

