-- ==== Sys2Proof/Laws/Memory.lean ====
section
/-! SUPPORT. The laws of the message buffer (10_state.md R26, 20_memory.md R36): a read after a write, and every write keeps
the canonical form. -/

namespace Sys2Proof.Machine

/-- What a byte reads as after a write: the new value there, everything else as before. -/
theorem Memory.read_write (m : Memory) (a c : Nat) (x : U8) :
    Memory.read (m.write a x) c = if c = a then some x else m.read c := by
  induction m with
  | nil => simp [Memory.write, Memory.read]
  | cons p rest ih =>
    obtain ⟨b, y⟩ := p
    unfold Memory.write
    split
    · simp [Memory.read]
    · split
      · rename_i h; subst h; simp only [Memory.read]; split <;> simp_all
      · simp only [Memory.read, ih]
        by_cases hcb : c = b
        · subst hcb
          have : ¬c = a := by omega
          simp [this]
        · simp [hcb]

@[simp] theorem Memory.read_write_same (m : Memory) (a : Nat) (x : U8) : Memory.read (m.write a x) a = some x := by
  simp [Memory.read_write]

theorem Memory.read_write_other {m : Memory} {a c : Nat} {x : U8} (h : c ≠ a) :
    Memory.read (m.write a x) c = m.read c := by
  simp [Memory.read_write, h]

/-- What a byte reads as after a word write: the four bytes little-endian, everything else as before (R36). -/
theorem Memory.read_writeWord (m : Memory) (i c : Nat) (d : U32) :
    Memory.read (m.writeWord i d) c =
      if c = i + 3 then some (d.extractLsb' 24 8) else if c = i + 2 then some (d.extractLsb' 16 8)
      else if c = i + 1 then some (d.extractLsb' 8 8) else if c = i then some (d.extractLsb' 0 8) else m.read c := by
  simp only [Memory.writeWord, Memory.read_write]

/-- The first offset of a buffer in canonical form is below every other. -/
theorem Memory.wf_cons {a : Nat} {x : U8} {m : Memory} :
    Memory.wf ((a, x) :: m) = true ↔ Memory.wf m = true ∧ ∀ c ∈ m, a < c.1 := by
  induction m generalizing a x with
  | nil => simp [Memory.wf]
  | cons p rest ih =>
    obtain ⟨b, y⟩ := p
    simp only [Memory.wf, Bool.and_eq_true, decide_eq_true_eq, List.mem_cons, forall_eq_or_imp]
    constructor
    · rintro ⟨hab, h⟩
      exact ⟨h, hab, fun c hc => Nat.lt_trans hab ((ih.mp h).2 c hc)⟩
    · rintro ⟨h, hab, -⟩
      exact ⟨hab, h⟩

/-- What a write lists: the byte written, and bytes that were listed. -/
theorem Memory.mem_write {m : Memory} {a : Nat} {x : U8} {c : Host.Cell} (h : c ∈ m.write a x) :
    c = (a, x) ∨ c ∈ m := by
  induction m with
  | nil => simpa [Memory.write] using h
  | cons p rest ih =>
    obtain ⟨b, y⟩ := p
    unfold Memory.write at h
    split at h
    · simpa using h
    · split at h
      · rcases List.mem_cons.mp h with h | h
        · exact .inl h
        · exact .inr (List.mem_cons_of_mem _ h)
      · rcases List.mem_cons.mp h with h | h
        · exact .inr (h ▸ List.mem_cons_self)
        · rcases ih h with h | h
          · exact .inl h
          · exact .inr (List.mem_cons_of_mem _ h)

/-- A write keeps the canonical form. -/
theorem Memory.wf_write {m : Memory} (h : m.wf = true) (a : Nat) (x : U8) : (m.write a x).wf = true := by
  induction m with
  | nil => rfl
  | cons p rest ih =>
    obtain ⟨b, y⟩ := p
    have hc := Memory.wf_cons.mp h
    unfold Memory.write
    split
    · next hab =>
      refine Memory.wf_cons.mpr ⟨h, ?_⟩
      simp only [List.mem_cons, forall_eq_or_imp]
      exact ⟨hab, fun c hcm => Nat.lt_trans hab (hc.2 c hcm)⟩
    · split
      · next hab => subst hab; exact Memory.wf_cons.mpr hc
      · next hlt hne =>
        refine Memory.wf_cons.mpr ⟨ih hc.1, fun c hcm => ?_⟩
        rcases Memory.mem_write hcm with rfl | hm
        · show b < a; omega
        · exact hc.2 c hm

/-- A word write keeps the canonical form. -/
theorem Memory.wf_writeWord {m : Memory} (h : m.wf = true) (i : Nat) (d : U32) : (m.writeWord i d).wf = true :=
  wf_write (wf_write (wf_write (wf_write h _ _) _ _) _ _) _ _

/-- A word write lists its four bytes, and bytes that were listed. -/
theorem Memory.mem_writeWord {m : Memory} {i : Nat} {d : U32} {c : Host.Cell} (h : c ∈ m.writeWord i d) :
    (i ≤ c.1 ∧ c.1 < i + 4) ∨ c ∈ m := by
  rcases Memory.mem_write h with rfl | h
  · exact .inl ⟨by simp, by simp⟩
  rcases Memory.mem_write h with rfl | h
  · exact .inl ⟨by simp, by simp⟩
  rcases Memory.mem_write h with rfl | h
  · exact .inl ⟨by simp, by simp⟩
  rcases Memory.mem_write h with rfl | h
  · exact .inl ⟨by simp, by simp⟩
  exact .inr h

/-- The empty buffer of reset (70_reset_and_hazards.md R142) is in canonical form and every byte is unwritten. -/
@[simp] theorem Memory.wf_nil : Memory.wf [] = true := rfl

@[simp] theorem Memory.read_nil (a : Nat) : Memory.read [] a = none := rfl

end Sys2Proof.Machine
end

