-- ==== Sys2Proof/Laws/PerInstr.lean ====
section
/-! SUPPORT. Statements made for each instruction as syntax: the fields of its command word (30_encoding.md R50 to R53). -/

namespace Sys2Proof.Laws.OpcodeField

/-- The instruction is well formed, its word is well formed with `RSV` 0 and its own opcode in `OP`, and the word decodes to
it. -/
def Statement (i : Instr) : Prop :=
  i.wellFormed = true ∧ wordWellFormed (encode i) = true ∧ rsvField (encode i) = 0#24 ∧
    opField (encode i) = encodeOp i ∧ decodeWord (encode i) = .ok i ∧ decodeTableWord 32 (encode i).toNat = some i

theorem hash32 : Statement .hash32 := ⟨rfl, by decide, by decide, by decide, rfl, rfl⟩
theorem hash64 : Statement .hash64 := ⟨rfl, by decide, by decide, by decide, rfl, rfl⟩
theorem hash64s : Statement .hash64s := ⟨rfl, by decide, by decide, by decide, rfl, rfl⟩
theorem adNew : Statement .adNew := ⟨rfl, by decide, by decide, by decide, rfl, rfl⟩
theorem adSeed : Statement .adSeed := ⟨rfl, by decide, by decide, by decide, rfl, rfl⟩
theorem adFeed : Statement .adFeed := ⟨rfl, by decide, by decide, by decide, rfl, rfl⟩
theorem adFin : Statement .adFin := ⟨rfl, by decide, by decide, by decide, rfl, rfl⟩

end Sys2Proof.Laws.OpcodeField
end

