-- ==== Sys2Proof/Laws/Step.lean ====
section
/-! SUPPORT. Who moves in a step, by the first entry of the timeline (20_memory.md R40, 70_reset_and_hazards.md R146), and
the one inversion lemma for `step`. -/

namespace Sys2Proof.Machine

variable {s : State} {rest : List Input}

theorem step_nil (h : s.inputs = []) : step s = engineTurn s := by
  simp [step, nextStep, h]

theorem step_engine (h : s.inputs = .engine :: rest) : step s = engineTurn (s.withInputs rest) := by
  simp [step, nextStep, h]

theorem step_reset (h : s.inputs = .reset :: rest) : step s = .next (s.withInputs rest).applyReset := by
  simp [step, nextStep, h]

theorem step_accepted {a : Access} (h : s.inputs = .host a :: rest) (ha : s.accepts a = true) :
    step s = hostAccess a (s.withInputs rest) := by
  simp [step, nextStep, h, ha]

theorem step_held {a : Access} (h : s.inputs = .host a :: rest) (ha : s.accepts a = false) :
    step s = engineTurn s := by
  simp [step, nextStep, h, ha]

theorem accepts_idle (h : s.busy = false) (a : Access) : s.accepts a = true := by simp [State.accepts, h]

theorem engineTurn_busy (h : s.busy = true) : engineTurn s = complete s := by simp [engineTurn, h]

theorem engineTurn_idle (h : s.busy = false) : engineTurn s = .next s := by simp [engineTurn, h]

theorem complete_ok {i : Instr} (h : decodeWord s.pend = .ok i) : complete s = exec i s := by simp [complete, h]

theorem complete_illegal {e : DecodeError} (h : decodeWord s.pend = .error e) :
    complete s = .next (s.raiseFault .illegalCommand) := by simp [complete, h]

/-- A completion performs a command or takes ILLEGAL_COMMAND. -/
theorem complete_cases (s : State) :
    (∃ i, decodeWord s.pend = .ok i ∧ complete s = exec i s) ∨ complete s = .next (s.raiseFault .illegalCommand) := by
  cases h : decodeWord s.pend with
  | ok i => exact .inl ⟨i, rfl, complete_ok h⟩
  | error e => exact .inr (complete_illegal h)

/-- What no completion touches. -/
theorem complete_frame {t : State} (h : complete s = .next t) :
    t.params = s.params ∧ t.msg = s.msg ∧ t.len = s.len ∧ t.seed = s.seed ∧ t.inputs = s.inputs ∧
      t.outputs = s.outputs ∧ t.busy = false := by
  rcases complete_cases s with ⟨i, -, h'⟩ | h'
  · exact exec_next_frame (h' ▸ h)
  · rw [h'] at h; cases h; exact ⟨rfl, rfl, rfl, rfl, rfl, rfl, rfl⟩

/-- While a command runs only the read of `STATUS` is accepted (70_reset_and_hazards.md R146). -/
theorem accepts_busy {a : Access} (hb : s.busy = true) (h : s.accepts a = true) : a = .read 0x04 .word := by
  cases a with
  | write off w d => simp [State.accepts, hb, isStatusRead] at h
  | read off w => simp [State.accepts, hb, isStatusRead] at h; simp [h]

/-- The engine moves on the state `takeTurn` leaves. -/
theorem step_engineIsNext (hb : s.busy = true) (hn : engineIsNext s.inputs = true) : step s = complete s.takeTurn := by
  cases hi : s.inputs with
  | nil =>
    rw [step_nil hi, engineTurn_busy hb]; simp [State.takeTurn, hi]
  | cons x rest =>
    cases x with
    | engine =>
      rw [step_engine hi, engineTurn_busy (by simpa using hb)]; simp [State.takeTurn, hi]
    | reset => simp [hi, engineIsNext] at hn
    | host a =>
      have ha : s.accepts a = false := by simpa [State.accepts, hb, hi, engineIsNext] using hn
      rw [step_held hi ha, engineTurn_busy hb]; simp [State.takeTurn, hi]

/-- Every step is the engine's completion, an idle turn, a reset or an accepted host access. -/
theorem step_cases (s : State) :
    (s.busy = true ∧ engineIsNext s.inputs = true ∧ step s = complete s.takeTurn) ∨
    (s.busy = false ∧ step s = .next s.takeTurn) ∨
    (∃ rest, s.inputs = .reset :: rest ∧ step s = .next (s.withInputs rest).applyReset) ∨
    (∃ a rest, s.inputs = .host a :: rest ∧ s.accepts a = true ∧ step s = hostAccess a (s.withInputs rest)) := by
  cases hi : s.inputs with
  | nil =>
    cases hb : s.busy with
    | true => exact .inl ⟨rfl, rfl, step_engineIsNext hb (by rw [hi]; rfl)⟩
    | false => exact .inr (.inl ⟨rfl, by rw [step_nil hi, engineTurn_idle hb]; simp [State.takeTurn, hi]⟩)
  | cons x rest =>
    cases x with
    | engine =>
      cases hb : s.busy with
      | true => exact .inl ⟨rfl, rfl, step_engineIsNext hb (by rw [hi]; rfl)⟩
      | false =>
        refine .inr (.inl ⟨rfl, ?_⟩)
        rw [step_engine hi, engineTurn_idle (by simpa using hb)]; simp [State.takeTurn, hi]
    | reset => exact .inr (.inr (.inl ⟨rest, rfl, step_reset hi⟩))
    | host a =>
      cases ha : s.accepts a with
      | true => exact .inr (.inr (.inr ⟨a, rest, rfl, ha, step_accepted hi ha⟩))
      | false =>
        have hb : s.busy = true := by cases hb : s.busy with
          | true => rfl
          | false => simp [State.accepts, hb] at ha
        have hn : engineIsNext s.inputs = true := by
          rw [hi]; simpa [State.accepts, hb, engineIsNext] using ha
        exact .inl ⟨hb, hi ▸ hn, step_engineIsNext hb hn⟩

/-- An accepted access is carried out on its target, or refused with the state untouched (20_memory.md R31). -/
theorem hostAccess_read {off : Nat} {w : Width} {t : Target} (h : target s.params.bufBytes off w = .ok t) :
    hostAccess (.read off w) s = .next (s.hostRead w t) := by simp [hostAccess, h]

theorem hostAccess_write {off : Nat} {w : Width} {d : U32} {t : Target} (h : target s.params.bufBytes off w = .ok t) :
    hostAccess (.write off w d) s = .next (s.hostWrite w d t) := by simp [hostAccess, h]

theorem hostAccess_cases (a : Access) (s : State) :
    (∃ t, target s.params.bufBytes a.place.1 a.place.2 = .ok t ∧
      ((∃ off w, a = .read off w ∧ hostAccess a s = .next (s.hostRead w t)) ∨
        (∃ off w d, a = .write off w d ∧ hostAccess a s = .next (s.hostWrite w d t)))) ∨
    (∃ r, target s.params.bufBytes a.place.1 a.place.2 = .error r ∧ hostAccess a s = .refused r) := by
  cases a with
  | read off w =>
    cases h : target s.params.bufBytes off w with
    | ok t => exact .inl ⟨t, h, .inl ⟨off, w, rfl, hostAccess_read h⟩⟩
    | error r => exact .inr ⟨r, h, by simp [hostAccess, h]⟩
  | write off w d =>
    cases h : target s.params.bufBytes off w with
    | ok t => exact .inl ⟨t, h, .inr ⟨off, w, d, rfl, hostAccess_write h⟩⟩
    | error r => exact .inr ⟨r, h, by simp [hostAccess, h]⟩

/-- One accepted access of an idle block, from the head of its timeline. -/
theorem step_read {off : Nat} {w : Width} {t : Target} (hb : s.busy = false)
    (h : target s.params.bufBytes off w = .ok t) :
    step (s.withInputs (.host (.read off w) :: rest)) = .next ((s.withInputs rest).hostRead w t) := by
  rw [step_accepted rfl (accepts_idle (by simpa using hb) _), hostAccess_read (by simpa using h)]
  rfl

theorem step_write {off : Nat} {w : Width} {d : U32} {t : Target} (hb : s.busy = false)
    (h : target s.params.bufBytes off w = .ok t) :
    step (s.withInputs (.host (.write off w d) :: rest)) = .next ((s.withInputs rest).hostWrite w d t) := by
  rw [step_accepted rfl (accepts_idle (by simpa using hb) _), hostAccess_write (by simpa using h)]
  rfl

section runs

/-- A run of the core is its first step and then the rest. -/
theorem run_next {s s' : State} (h : step s = .next s') (k : Nat) :
    Sys2Proof.core.run (k + 1) s = Sys2Proof.core.run k s' := by
  have h' : Sys2Proof.core.step s = .next s' := h
  simp only [Host.Core.run, h']

theorem run_fault {s : State} {r : Fault} (h : step s = .fault r) (k : Nat) :
    Sys2Proof.core.run (k + 1) s = .fault r := by
  have h' : Sys2Proof.core.step s = .fault r := h
  simp only [Host.Core.run, h']

end runs

section targets

/-- The register offsets of 20_memory.md R31, each with what it reaches. -/
@[simp] theorem target_cmd (n : Nat) : target n 0x00 .word = .ok .cmd := rfl
@[simp] theorem target_status (n : Nat) : target n 0x04 .word = .ok .status := rfl
@[simp] theorem target_len (n : Nat) : target n 0x08 .word = .ok .len := rfl
@[simp] theorem target_0x0C (n : Nat) : target n 0x0C .word = .ok .reserved := rfl
@[simp] theorem target_seedLo (n : Nat) : target n 0x10 .word = .ok .seedLo := rfl
@[simp] theorem target_seedHi (n : Nat) : target n 0x14 .word = .ok .seedHi := rfl
@[simp] theorem target_resultLo (n : Nat) : target n 0x18 .word = .ok .resultLo := rfl
@[simp] theorem target_resultHi (n : Nat) : target n 0x1C .word = .ok .resultHi := rfl

theorem target_reserved {n off : Nat} {w : Width} (h : 0x20 ≤ off) (h' : off + w.bytes ≤ 0x1000) :
    target n off w = .ok .reserved := by
  have hw : 0 < w.bytes := by cases w <;> decide
  simp [target, Nat.not_lt.mpr h, h', show off < 0x1000 by omega]

theorem target_windowByte {n i : Nat} (h : i < n) : target n (0x1000 + i) .byte = .ok (.window i) := by
  simp [target, windowTarget, Width.bytes, show ¬(0x1000 + i < 0x20) by omega, show ¬(0x1000 + i < 0x1000) by omega,
    show ¬(n < i + 1) by omega]

theorem target_windowWord {n i : Nat} (h : i + 4 ≤ n) (h4 : i % 4 = 0) :
    target n (0x1000 + i) .word = .ok (.window i) := by
  simp [target, windowTarget, Width.bytes, show ¬(0x1000 + i < 0x20) by omega, show ¬(0x1000 + i < 0x1000) by omega,
    show ¬(n < i + 4) by omega, h4]

theorem registerAt_not_window (off i : Nat) : registerAt off ≠ .window i := by
  unfold registerAt
  split_ifs <;> intro h <;> cases h

/-- Whatever is reached in the window lies inside the buffer. -/
theorem target_window_bound {n off i : Nat} {w : Width} (h : target n off w = .ok (.window i)) : i + w.bytes ≤ n := by
  unfold target at h
  split at h
  · unfold registerTarget at h
    split at h
    · exact absurd (Except.ok.inj h) (registerAt_not_window off i)
    · cases h
  · split at h
    · split at h <;> cases h
    · unfold windowTarget at h
      simp only at h
      split at h
      · cases h
      · split at h
        · simp only [Except.ok.injEq, Target.window.injEq] at h; omega
        · cases h

/-- `CMD` is reached by the aligned 32-bit access at offset 0 and by no other. -/
theorem target_cmd_iff {n off : Nat} {w : Width} : target n off w = .ok .cmd ↔ off = 0 ∧ w = .word := by
  constructor
  · intro h
    unfold target at h
    split at h
    · unfold registerTarget at h
      split at h
      · next hw =>
        refine ⟨?_, hw.1⟩
        have hc := Except.ok.inj h
        unfold registerAt at hc
        by_contra h0
        rw [if_neg h0] at hc
        split_ifs at hc
      · cases h
    · split at h
      · split at h <;> cases h
      · unfold windowTarget at h
        simp only at h
        split at h
        · cases h
        · split at h <;> cases h
  · rintro ⟨rfl, rfl⟩
    exact target_cmd n

end targets

end Sys2Proof.Machine
end

