-- ==== Sys2Proof/Laws/Values.lean ====
section
/-! SUPPORT. The loops over a written message, as folds over pure functions (41_hash32.md R82, R86; 42_hash64.md R98), and
what a message-reading command answers for a digest it has computed. -/

namespace Sys2Proof.Machine

section length

/-- `LEN` is what the digests use as their length (30_encoding.md R52). -/
theorem State.view_n (s : State) : s.view.n = s.len.toNat := rfl

theorem State.view_n32 (s : State) : s.view.n32 = s.len := by simp [View.n32, State.view]

theorem State.view_n64 (s : State) : s.view.n64 = s.len.setWidth 64 :=
  BitVec.eq_of_toNat_eq (by simp [View.n64, State.view])

end length

section loops

variable {v : View} {b : Nat → U8} (hv : v.Holds b)
include hv

theorem foldBytes32_ok (k : Nat) : ∀ i x c, i + k ≤ v.n →
    foldBytes32 v k i x c = .ok ((List.range' i k).foldl
      (fun (p : U32 × U32) i => (p.1 * C1 + (b i).signExtend 32, p.2 ^^^ (p.1 * C1 + (b i).signExtend 32))) (x, c)) := by
  induction k with
  | zero => intro i x c _; rfl
  | succ k ih =>
    intro i x c h
    rw [foldBytes32, View.byte_ok hv (by omega)]
    show foldBytes32 v k (i + 1) _ _ = _
    rw [ih _ _ _ (by omega), List.range'_succ]
    rfl

theorem hash32Loop_ok (k : Nat) : ∀ j r, 20 * j + 20 * k ≤ v.n →
    hash32Loop v k (20 * j) r = .ok ((List.range' j k).foldl
      (fun r k => chunk32 r (word32 b (20 * k)) (word32 b (20 * k + 4)) (word32 b (20 * k + 8))
        (word32 b (20 * k + 12)) (word32 b (20 * k + 16))) r) := by
  induction k with
  | zero => intro j r _; rfl
  | succ k ih =>
    intro j r h
    rw [hash32Loop, View.fetch32_ok hv (by omega), View.fetch32_ok hv (by omega), View.fetch32_ok hv (by omega),
      View.fetch32_ok hv (by omega), View.fetch32_ok hv (by omega)]
    show hash32Loop v k (20 * (j + 1)) _ = _
    rw [ih _ _ (by omega), List.range'_succ]
    rfl

omit hv in
theorem hash64Loop_ok (f : Regs64 → Nat → Regs64)
    (hf : ∀ j r, 64 * j + 64 ≤ v.n → chunk64 v (64 * j) r = .ok (f r j)) (k : Nat) : ∀ j r, 64 * j + 64 * k ≤ v.n →
    hash64Loop v k (64 * j) r = .ok ((List.range' j k).foldl f r) := by
  induction k with
  | zero => intro j r _; rfl
  | succ k ih =>
    intro j r h
    rw [hash64Loop, hf _ _ (by omega)]
    show hash64Loop v k (64 * (j + 1)) _ = _
    rw [ih _ _ (by omega), List.range'_succ]
    rfl

end loops

section commands

variable {s : State}

theorem execHash32_ok {d : U32} (hl : s.len.toNat ≤ s.params.bufBytes) (h : digest32 s.view = .ok d) :
    exec .hash32 s = .next (s.setResult (d.setWidth 64)).retire :=
  messageCommand_ok (commit := fun (d : U32) s => s.setResult (d.setWidth 64)) hl h

theorem execHash64_ok {d : U64} (hl : s.len.toNat ≤ s.params.bufBytes) (h : digest64 s.view = .ok d) :
    exec .hash64 s = .next (s.setResult d).retire :=
  messageCommand_ok (commit := fun d s => s.setResult d) hl h

theorem execHash64s_ok {d : U64} (hl : s.len.toNat ≤ s.params.bufBytes) (h : digest64 s.view = .ok d) :
    exec .hash64s s = .next (s.setResult (seedDigest d s.seed)).retire :=
  messageCommand_ok (commit := fun d s => s.setResult d) hl (by rw [hash64Seeded, h]; rfl)

/-- Over a written message a computation that ends early only at unwritten bytes does not end early. -/
theorem State.HoldsMessage.computes {b : Nat → U8} (h : s.HoldsMessage b) {α : Type} {x : Except Halt α}
    (hx : s.view.OnlyUnwritten x) : ∃ d, x = .ok d := by
  cases x with
  | ok d => exact ⟨d, rfl⟩
  | error e =>
    obtain ⟨a, -, ha, hr⟩ := hx e rfl
    exact absurd ((h.2 a ha).symm.trans hr) (by simp)

end commands

end Sys2Proof.Machine
end

