-- ==== Sys2Proof/Tests/Slice0.lean ====
section
/-! SUPPORT. The model's own tests: ill-formed terms refused, the encodings written out from 30_encoding.md, one step per
test on the vectors of 95_test_vectors.md, and a witness for every statement that has hypotheses. -/

namespace Sys2Proof.Tests

open Sys2Proof Sys2Proof.Machine

/-- `n` bytes of the pattern message of 95_test_vectors.md. -/
def pat (n : Nat) : List U8 := (List.range n).map fun i => BitVec.ofNat 8 (167 * i + 13)

/-- The block after reset, with a message loaded. -/
def loaded (bytes : List U8) : State :=
  { State.reset with msg := (List.range bytes.length).zip bytes, len := BitVec.ofNat 32 bytes.length }

/-- The bytes of a loaded message as a function. -/
def bytesOf (l : List U8) (i : Nat) : U8 := l.getD i 0

/-- The block with a command latched. -/
def running (i : Instr) (s : State) : State := s.withFetchWord 32 (encode i).toNat

/-- A field of the state a step answers. -/
def after {α : Type} (f : State → α) (o : Host.Outcome State Fault Refusal) : Option α :=
  match o with
  | .next s => some (f s)
  | .fault _ => none
  | .refused _ => none

def hello : List U8 := [0x68, 0x65, 0x6c, 0x6c, 0x6f]
def world : List U8 := [0x77, 0x6f, 0x72, 0x6c, 0x64]

section wellFormed

/-- R50: `RSV` must be 0. -/
theorem test_rsv_refused : wordWellFormed 0x00000101#32 = false := by decide
/-- R53: `OP` must be one of the seven. -/
theorem test_op_refused : wordWellFormed 0x00000004#32 = false := by decide
/-- R34: a narrow access to a register. -/
theorem test_narrow_register_refused : Access.wellFormed Params.running (.read 0x08 .half) = false := by decide
/-- R34: a misaligned access to a register. -/
theorem test_misaligned_register_refused : Access.wellFormed Params.running (.read 0x09 .word) = false := by decide
/-- R36: a 16-bit access to the window. -/
theorem test_half_window_refused : Access.wellFormed Params.running (.read 0x1000 .half) = false := by decide
/-- R36: a misaligned word of the window. -/
theorem test_misaligned_window_refused : Access.wellFormed Params.running (.write 0x1002 .word 0) = false := by decide
/-- R36: past the end of the window. -/
theorem test_window_end_refused : Access.wellFormed Params.running (.write 0x2000 .byte 0) = false := by decide
/-- R31: across the reserved space and the window. -/
theorem test_spanning_refused : Access.wellFormed Params.running (.read 0x0FFE .word) = false := by decide
/-- R31: the last register, the last reserved word, the last byte and the last word of the window are accepted. -/
theorem test_last_places_accepted :
    Access.wellFormed Params.running (.read 0x1C .word) = true ∧
    Access.wellFormed Params.running (.read 0x0FFC .word) = true ∧
    Access.wellFormed Params.running (.read 0x1FFF .byte) = true ∧
    Access.wellFormed Params.running (.read 0x1FFC .word) = true := by decide
/-- A refused access is refused by the block, by name. -/
theorem test_refusal_names :
    hostAccess (.read 0x08 .half) State.reset = .refused (.accessForm 0x08 .half) ∧
    hostAccess (.write 0x2000 .byte 0) State.reset = .refused (.outsideBlock 0x2000 .byte) := ⟨rfl, rfl⟩

end wellFormed

section decode

theorem test_decode_hash32 : decodeWord 0b000000000000000000000000_00000001#32 = .ok .hash32 := by rfl
theorem test_decode_hash64 : decodeWord 0b000000000000000000000000_00000010#32 = .ok .hash64 := by rfl
theorem test_decode_hash64s : decodeWord 0b000000000000000000000000_00000011#32 = .ok .hash64s := by rfl
theorem test_decode_adNew : decodeWord 0b000000000000000000000000_00001000#32 = .ok .adNew := by rfl
theorem test_decode_adSeed : decodeWord 0b000000000000000000000000_00001001#32 = .ok .adSeed := by rfl
theorem test_decode_adFeed : decodeWord 0b000000000000000000000000_00001010#32 = .ok .adFeed := by rfl
theorem test_decode_adFin : decodeWord 0b000000000000000000000000_00001011#32 = .ok .adFin := by rfl
/-- The illegal words of 95_test_vectors.md section 9. -/
theorem test_decode_illegal :
    decodeWord 0x00000000#32 = .error .unknownOpcode ∧ decodeWord 0x00000004#32 = .error .unknownOpcode ∧
    decodeWord 0x000000ff#32 = .error .unknownOpcode ∧ decodeWord 0x00000101#32 = .error .reservedBits ∧
    decodeWord 0x80000001#32 = .error .reservedBits ∧ decodeWord 0x01000000#32 = .error .reservedBits := by
  refine ⟨?_, ?_, ?_, ?_, ?_, ?_⟩ <;> rfl

end decode

section steps

/-- T1 (source vector S2). -/
theorem test_hash32_hello : after State.result (step (running .hash32 (loaded hello))) = some 0x79969366#64 := by decide
/-- T4: a byte of 0x80 is sign-extended. -/
theorem test_hash32_sign : after State.result (step (running .hash32 (loaded [0x80]))) = some 0x2fc8696b#64 := by decide
/-- T2 (source vector S3). -/
theorem test_hash64_world : after State.result (step (running .hash64 (loaded world))) = some 0xe41a54435eb8b46e#64 := by
  decide
/-- Section 5, n = 65: the long bucket, one iteration. -/
theorem test_hash64_pat65 : after State.result (step (running .hash64 (loaded (pat 65)))) =
    some 0x95fa9a515aa626a0#64 := by decide +kernel
/-- V1. -/
theorem test_hash64s_hello : after State.result (step (running .hash64s { loaded hello with seed := 1#64 })) =
    some 0x7dfad06079963224#64 := by decide
/-- V8: the subtraction of `K2` wraps. -/
theorem test_hash64s_abc : after State.result (step (running .hash64s { loaded [0x61, 0x62, 0x63] with seed := 1#64 })) =
    some 0xb60e0734088285ef#64 := by decide
/-- A14: AD.NEW discards the running digest. -/
theorem test_adNew : after State.ad (step (running .adNew { State.reset with ad := some 5#64 })) = some none := by decide
/-- A9: a seed of 0 gives `Some(0)`, which only `STATUS` tells from `None`. -/
theorem test_adSeed_zero : after (fun s => (s.ad, s.status)) (step (running .adSeed State.reset)) =
    some (some 0#64, 0x00000004#32) := by decide
/-- A8. -/
theorem test_adSeed_seven : after State.ad (step (running .adSeed { State.reset with seed := 7#64 })) =
    some (some 7#64) := by decide
/-- A1: the first feed of an unseeded adapter; `RESULT` is not written. -/
theorem test_adFeed_first : after (fun s => (s.ad, s.result)) (step (running .adFeed { loaded hello with result := 9#64 })) =
    some (some 0xb48be5a931380ce8#64, 9#64) := by decide
/-- A13: the second feed takes its seed from `AD`, not from `SEED`. -/
theorem test_adFeed_second : after State.ad (step (running .adFeed
    { loaded world with ad := some 0xb48be5a931380ce8#64, seed := 9#64 })) = some (some 0xcbe465e68d6df126#64) := by decide
/-- A7: finalize from `None` gives 0. -/
theorem test_adFin_none : after State.result (step (running .adFin { State.reset with result := 9#64 })) =
    some 0#64 := by decide
/-- A12: finalize does not consume the adapter. -/
theorem test_adFin_some : after (fun s => (s.result, s.ad)) (step (running .adFin { State.reset with ad := some 7#64 })) =
    some (7#64, some 7#64) := by decide
/-- Section 10: an illegal word, and a length past the buffer, raise their faults; data state stays. -/
theorem test_faults :
    after (fun s => (s.status, s.result)) (step ({ State.reset with result := 9#64 }.latch 0x04#32)) =
      some (0x00000022#32, 9#64) ∧
    after (fun s => (s.status, s.result)) (step (running .hash32 { State.reset with len := 4097#32, result := 9#64 })) =
      some (0x00000032#32, 9#64) := by decide
/-- R44: an unwritten byte stops the model. -/
theorem test_unwritten : exec .hash32 { State.reset with len := 1#32 } = .fault (.unwrittenByte 0) := by rfl
/-- R36, R37: a word of the window is little-endian. -/
theorem test_window_word :
    after State.msg (step (State.reset.withInputs [.host (.write 0x1004 .word 0x44332211#32)])) =
      some [(4, 0x11#8), (5, 0x22#8), (6, 0x33#8), (7, 0x44#8)] ∧
    after State.outputs (step ((loaded hello).withInputs [.host (.read 0x1000 .word)])) = some [0x6c6c6568#32] := by decide

end steps

section witnesses

/-! Every hypothesis of every statement is met by a concrete state, at the boundary values of its clauses. -/

/-- A busy block with nothing to come. -/
def busyIdle : State := running .hash32 (loaded hello)
/-- A block in the fault state (95_test_vectors.md F1). -/
def faulted : State := { State.reset with fault := true, fcode := 2#4 }

/-- The opcodes on both sides of each group, and the lowest and the highest bit of `RSV`. -/
theorem witness_DecodingIsTotalAndAsTheMapSays :
    (0x00000100#32 : U32).extractLsb' 8 24 ≠ 0#24 ∧ (0x80000002#32 : U32).extractLsb' 8 24 ≠ 0#24 ∧
    (∀ k : Fin 256, (BitVec.ofNat 32 k.val).extractLsb' 8 24 = 0#24 ∧
      (BitVec.ofNat 32 k.val).extractLsb' 0 8 = BitVec.ofNat 8 k.val) := by decide +kernel

theorem witness_DecodeAndEncodeAgree : decodeWord (encode .hash32) = .ok .hash32 ∧ (0x0B#32 : U32) = encode .adFin :=
  ⟨rfl, rfl⟩

theorem witness_StepRunsTheLatchedCommand :
    (busyIdle.busy = true ∧ engineIsNext busyIdle.inputs = true ∧ decodeWord busyIdle.pend = .ok .hash32) ∧
    (let s := busyIdle.withInputs [.engine]
     s.busy = true ∧ engineIsNext s.inputs = true ∧ decodeWord s.pend = .ok .hash32) ∧
    (let s := busyIdle.withInputs [.host (.write 0x0008 .word 0)]
     s.busy = true ∧ engineIsNext s.inputs = true ∧ decodeWord s.pend = .ok .hash32) :=
  ⟨⟨rfl, rfl, rfl⟩, ⟨rfl, rfl, rfl⟩, ⟨rfl, rfl, rfl⟩⟩

theorem witness_IllegalWordTakesIllegalCommandFault :
    (let s := State.reset.latch 0x04#32
     s.busy = true ∧ engineIsNext s.inputs = true ∧
       s.pend.extractLsb' 0 8 ∉ [0x01#8, 0x02#8, 0x03#8, 0x08#8, 0x09#8, 0x0A#8, 0x0B#8]) ∧
    (let s := ({ State.reset with len := 4097#32 } : State).latch 0x101#32
     s.busy = true ∧ engineIsNext s.inputs = true ∧ s.pend.extractLsb' 8 24 ≠ 0#24) := by decide

theorem witness_CommandWriteIssuesOrIsDropped :
    (State.reset.busy = false ∧ State.reset.fault = false) ∧ (faulted.busy = false ∧ faulted.fault = true) :=
  ⟨⟨rfl, rfl⟩, ⟨rfl, rfl⟩⟩

theorem witness_BusyIsSetOnlyByAnIssuedCommand : ∃ t,
    step (State.reset.withInputs [.host (.write 0x0000 .word 1#32)]) = .next t ∧
      (State.reset.withInputs [.host (.write 0x0000 .word 1#32)]).busy = false ∧ t.busy = true :=
  ⟨_, rfl, rfl, rfl⟩

theorem witness_HostIsHeldWhileBusy :
    busyIdle.busy = true ∧ isStatusRead (.read 0x0018 .word) = false ∧
      ∃ t, step (busyIdle.withInputs [.host (.read 0x0018 .word)]) = .next t :=
  ⟨rfl, rfl, _, rfl⟩

theorem witness_OperandsAreFixedWhileBusy :
    (∃ t, busyIdle.busy = true ∧ step busyIdle = .next t ∧ busyIdle.inputs.head? ≠ some .reset ∧ t.busy = false) ∧
    (∃ t, step (busyIdle.withInputs [.host (.read 0x0004 .word)]) = .next t ∧
      (busyIdle.withInputs [.host (.read 0x0004 .word)]).inputs.head? ≠ some .reset ∧ t.busy = true) :=
  ⟨⟨_, rfl, rfl, by decide, rfl⟩, ⟨_, rfl, by decide, rfl⟩⟩

/-- Both ways of ending: a command that completes, and a stop at an unwritten byte. -/
theorem witness_EveryCommandEnds :
    busyIdle.busy = true ∧ (running .hash32 { State.reset with len := 1#32 }).busy = true := ⟨rfl, rfl⟩

theorem witness_Hash32OfZeroToFourBytes :
    ((loaded []).HoldsMessage (bytesOf []) ∧ (loaded []).len.toNat ≤ 4) ∧
    ((loaded (pat 4)).HoldsMessage (bytesOf (pat 4)) ∧ (loaded (pat 4)).len.toNat ≤ 4) := by decide +kernel

theorem witness_Hash32OfFiveToTwelveBytes :
    ((loaded (pat 5)).HoldsMessage (bytesOf (pat 5)) ∧ 5 ≤ (loaded (pat 5)).len.toNat ∧ (loaded (pat 5)).len.toNat ≤ 12) ∧
    ((loaded (pat 12)).HoldsMessage (bytesOf (pat 12)) ∧ 5 ≤ (loaded (pat 12)).len.toNat ∧
      (loaded (pat 12)).len.toNat ≤ 12) := by decide +kernel

theorem witness_Hash32OfThirteenToTwentyFourBytes :
    ((loaded (pat 13)).HoldsMessage (bytesOf (pat 13)) ∧ 13 ≤ (loaded (pat 13)).len.toNat ∧
      (loaded (pat 13)).len.toNat ≤ 24) ∧
    ((loaded (pat 24)).HoldsMessage (bytesOf (pat 24)) ∧ 13 ≤ (loaded (pat 24)).len.toNat ∧
      (loaded (pat 24)).len.toNat ≤ 24) := by decide +kernel

theorem witness_Hash32OfMoreThanTwentyFourBytes :
    (loaded (pat 25)).HoldsMessage (bytesOf (pat 25)) ∧ 25 ≤ (loaded (pat 25)).len.toNat := by decide +kernel

theorem witness_Hash64OfZeroToThreeBytes :
    ((loaded []).HoldsMessage (bytesOf []) ∧ (loaded []).len.toNat = 0) ∧
    ((loaded (pat 1)).HoldsMessage (bytesOf (pat 1)) ∧ 1 ≤ (loaded (pat 1)).len.toNat ∧ (loaded (pat 1)).len.toNat ≤ 3) ∧
    ((loaded (pat 3)).HoldsMessage (bytesOf (pat 3)) ∧ 1 ≤ (loaded (pat 3)).len.toNat ∧ (loaded (pat 3)).len.toNat ≤ 3) := by
  decide +kernel

theorem witness_Hash64OfFourToSixteenBytes :
    ((loaded (pat 4)).HoldsMessage (bytesOf (pat 4)) ∧ 4 ≤ (loaded (pat 4)).len.toNat ∧ (loaded (pat 4)).len.toNat ≤ 7) ∧
    ((loaded (pat 7)).HoldsMessage (bytesOf (pat 7)) ∧ 4 ≤ (loaded (pat 7)).len.toNat ∧ (loaded (pat 7)).len.toNat ≤ 7) ∧
    ((loaded (pat 8)).HoldsMessage (bytesOf (pat 8)) ∧ 8 ≤ (loaded (pat 8)).len.toNat ∧ (loaded (pat 8)).len.toNat ≤ 16) ∧
    ((loaded (pat 16)).HoldsMessage (bytesOf (pat 16)) ∧ 8 ≤ (loaded (pat 16)).len.toNat ∧
      (loaded (pat 16)).len.toNat ≤ 16) := by decide +kernel

theorem witness_Hash64OfSeventeenToThirtyTwoBytes :
    ((loaded (pat 17)).HoldsMessage (bytesOf (pat 17)) ∧ 17 ≤ (loaded (pat 17)).len.toNat ∧
      (loaded (pat 17)).len.toNat ≤ 32) ∧
    ((loaded (pat 32)).HoldsMessage (bytesOf (pat 32)) ∧ 17 ≤ (loaded (pat 32)).len.toNat ∧
      (loaded (pat 32)).len.toNat ≤ 32) := by decide +kernel

theorem witness_Hash64OfThirtyThreeToSixtyFourBytes :
    ((loaded (pat 33)).HoldsMessage (bytesOf (pat 33)) ∧ 33 ≤ (loaded (pat 33)).len.toNat ∧
      (loaded (pat 33)).len.toNat ≤ 64) ∧
    ((loaded (pat 64)).HoldsMessage (bytesOf (pat 64)) ∧ 33 ≤ (loaded (pat 64)).len.toNat ∧
      (loaded (pat 64)).len.toNat ≤ 64) := by decide +kernel

theorem witness_Hash64OfMoreThanSixtyFourBytes :
    (loaded (pat 65)).HoldsMessage (bytesOf (pat 65)) ∧ 65 ≤ (loaded (pat 65)).len.toNat := by decide +kernel

theorem witness_Hash64SeededIsOneCombineOfHash64 : (loaded hello).HoldsMessage (bytesOf hello) := by decide +kernel

theorem witness_FeedReplacesTheAdapterState :
    (loaded hello).HoldsMessage (bytesOf hello) ∧ (loaded hello).ad = none ∧
    State.HoldsMessage { loaded hello with ad := some 7#64 } (bytesOf hello) ∧
      ({ loaded hello with ad := some 7#64 } : State).ad = some 7#64 ∧
    State.reset.params.bufBytes < ({ State.reset with len := 4097#32 } : State).len.toNat := by decide +kernel

theorem witness_FinalizeReturnsTheHeldValue :
    State.reset.ad = none ∧ ({ State.reset with ad := some 0#64 } : State).ad = some 0#64 := ⟨rfl, rfl⟩

theorem witness_ChainedReseedNotConcatenation :
    ((loaded hello).HoldsMessage (bytesOf hello) ∧
      State.HoldsMessage { loaded hello with msg := (loaded (pat 65)).msg, len := 65#32 } (bytesOf (pat 65))) ∧
    (let s := loaded hello
     s.len = 5#32 ∧ s.HoldsMessage (fun i => hello.getD i 0#8) ∧
       State.HoldsMessage { s with msg := (loaded world).msg, len := 5#32 } (fun i => world.getD i 0#8) ∧
       State.HoldsMessage { s with msg := (loaded (hello ++ world)).msg, len := 10#32 }
         (fun i => (hello ++ world).getD i 0#8)) := by
  decide +kernel

theorem witness_LengthBeyondTheBufferTakesLengthRangeFault :
    Instr.adFeed ∈ [Instr.hash32, .hash64, .hash64s, .adFeed] ∧ Instr.adFin ∈ [Instr.adNew, .adSeed, .adFin] ∧
    ({ State.reset with len := 4097#32 } : State).params.bufBytes < (4097#32 : U32).toNat ∧
    ({ State.reset with len := 0xffffffff#32 } : State).params.bufBytes < (0xffffffff#32 : U32).toNat := by decide

/-- An ordinary completion, and one that takes LENGTH_RANGE. -/
theorem witness_NoCommandRaisesBounds :
    (∃ t, exec .hash64 (loaded hello) = .next t ∧ t.fault = false) ∧
    ∃ t, exec .hash64 { State.reset with len := 4097#32 } = .next t ∧ t.fcode = 3#4 := ⟨⟨_, rfl, rfl⟩, ⟨_, rfl, rfl⟩⟩

theorem witness_TheTwoDisciplinesAgree :
    (∃ t, exec .hash64 (loaded hello) = .next t) ∧ ∃ r, exec .hash32 { State.reset with len := 1#32 } = .fault r :=
  ⟨⟨_, rfl⟩, ⟨_, rfl⟩⟩

theorem witness_MessageCommandsCompleteOverAWrittenMessage :
    Instr.hash64s ∈ [Instr.hash32, .hash64, .hash64s, .adFeed] ∧ (loaded (pat 25)).HoldsMessage (bytesOf (pat 25)) := by
  decide +kernel

theorem witness_CommandsStopExactlyAtUnwrittenBytes :
    let s : State := { loaded hello with len := 6#32 }
    Instr.hash64 ∈ [Instr.hash32, .hash64, .hash64s, .adFeed] ∧ s.len.toNat ≤ s.params.bufBytes ∧
      (5 < s.len.toNat ∧ s.byteAt 5 = none) ∧ exec .hash64 s = .fault (.unwrittenByte 5) :=
  ⟨by decide, by decide, by decide, rfl⟩

theorem witness_FaultStateIsLeftOnlyByReset :
    faulted.Inv ∧ faulted.fault = true ∧
    (∃ t, step (faulted.withInputs [.host (.write 0x0008 .word 5#32)]) = .next t) ∧
    (faulted.withInputs [.host (.write 0x0008 .word 5#32)]).Inv ∧
    (faulted.withInputs [.host (.write 0x0008 .word 5#32)]).inputs.head? ≠ some .reset :=
  ⟨by decide, rfl, ⟨_, rfl⟩, by decide, by decide⟩

theorem witness_CommandFrame :
    (∃ t, exec .hash32 (loaded hello) = .next t) ∧ (∃ t, exec .adFeed (loaded hello) = .next t) ∧
    (∃ t, exec .adNew State.reset = .next t) ∧ ∃ t, exec .adFin State.reset = .next t :=
  ⟨⟨_, rfl⟩, ⟨_, rfl⟩, ⟨_, rfl⟩, ⟨_, rfl⟩⟩

theorem witness_ResultIsWrittenOnlyByItsFourCommands :
    (∃ t, step busyIdle = .next t ∧ t.result ≠ busyIdle.result) ∧
    ∃ t, step ({ State.reset with result := 9#64, inputs := [.reset] } : State) = .next t ∧ t.result ≠ 9#64 :=
  ⟨⟨_, rfl, by decide⟩, ⟨_, rfl, by decide⟩⟩

theorem witness_AdapterIsWrittenOnlyByItsCommands :
    (∃ t, step (running .adSeed State.reset) = .next t ∧ t.ad ≠ (running .adSeed State.reset).ad) ∧
    ∃ t, step ({ State.reset with ad := some 9#64, inputs := [.reset] } : State) = .next t ∧ t.ad ≠ some 9#64 :=
  ⟨⟨_, rfl, by decide⟩, ⟨_, rfl, by decide⟩⟩

/-- Two blocks that differ in a byte past the length, in `RESULT` and in `LEN`'s other neighbours. -/
theorem witness_DigestDependsOnTheMessageAlone :
    let s : State := loaded hello
    let t : State := { loaded (hello ++ [9]) with len := 5#32, result := 7#64, fcode := 1#4 }
    s.len = t.len ∧ s.len.toNat ≤ s.params.bufBytes ∧ t.len.toNat ≤ t.params.bufBytes ∧
      (∀ a, a < s.len.toNat → s.byteAt a = t.byteAt a) ∧ s.seed = t.seed ∧ s.ad = t.ad ∧
      (∃ s', exec .hash32 s = .next s') ∧ (∃ s', exec .hash64s s = .next s') ∧ ∃ s', exec .adFeed s = .next s' :=
  ⟨rfl, by decide, by decide, by decide +kernel, rfl, rfl, ⟨_, rfl⟩, ⟨_, rfl⟩, ⟨_, rfl⟩⟩

/-- The first and the last word of the reserved space. -/
theorem witness_RegisterReads :
    State.reset.busy = false ∧ (0x20 ≤ 0x20 ∧ 0x20 + 4 ≤ 0x1000 ∧ 0x20 % 4 = 0) ∧
      (0x20 ≤ 0xFFC ∧ 0xFFC + 4 ≤ 0x1000 ∧ 0xFFC % 4 = 0) := by decide

theorem witness_StatusFields : State.reset.busy = false := rfl

theorem witness_RegisterWrites : State.reset.busy = false ∧ faulted.busy = false := ⟨rfl, rfl⟩

theorem witness_WritesToReadOnlyAndReservedHaveNoEffect :
    State.reset.busy = false ∧ 0x1C ∈ [0x0004, 0x000C, 0x0018, 0x001C] ∧
      (0x20 ≤ 0xFFC ∧ 0xFFC + 4 ≤ 0x1000 ∧ 0xFFC % 4 = 0) := by decide

/-- The last byte and the last word of the buffer. -/
theorem witness_WindowWrites :
    State.reset.busy = false ∧ 4095 < State.reset.params.bufBytes ∧
      (4092 % 4 = 0 ∧ 4092 + 4 ≤ State.reset.params.bufBytes) := by decide

/-- A written and an unwritten byte, a word across both. -/
theorem witness_WindowReads :
    (loaded hello).busy = false ∧ 4 < (loaded hello).params.bufBytes ∧ (loaded hello).byteAt 4 = some 0x6f#8 ∧
      (loaded hello).byteAt 5 = none ∧ (4 % 4 = 0 ∧ 4 + 4 ≤ (loaded hello).params.bufBytes) := by decide

theorem witness_RefusedAccessesAreTheOnesLeftOut :
    (∃ r, step (State.reset.withInputs [.host (.read 0x08 .half)]) = .refused r) ∧
    Access.wellFormed State.reset.params (.read 0x08 .half) = false := ⟨⟨_, rfl⟩, rfl⟩

theorem witness_ResultHalvesAreOfOneDigest : State.reset.busy = false := rfl

/-- In bounds up to the last byte, and one past it, in both disciplines. -/
theorem witness_ByteViewReads :
    let v : View := { msg := (loaded (pat 8)).msg, n := 8, checked := true }
    (∀ i, i < v.n → v.msg.read i = some (bytesOf (pat 8) i)) ∧ 7 + 1 ≤ v.n ∧ 4 + 4 ≤ v.n ∧ 0 + 8 ≤ v.n ∧
      v.n < 8 + 1 ∧ v.n < 5 + 4 ∧ v.n < 1 + 8 := by decide +kernel

theorem witness_LoadMacroLoadsTheMessage :
    State.reset.busy = false ∧ hello.length ≤ State.reset.params.bufBytes ∧
      ([] : List U8).length ≤ State.reset.params.bufBytes := by decide

theorem witness_SetSeedMacroSetsTheSeed : State.reset.busy = false := rfl

theorem witness_DoMacroPerformsTheCommand :
    (loaded hello).busy = false ∧ (loaded hello).fault = false ∧
      ∃ t, exec .hash64 { loaded hello with pend := encode .hash64, busy := true } = .next t := ⟨rfl, rfl, _, rfl⟩

theorem witness_InvariantHoldsAtReset :
    ({ bufBytes := 1024, checked := false } : Params).legal ∧ ({ bufBytes := 2 ^ 31, checked := true } : Params).legal := by
  decide

theorem witness_InvariantIsKeptByEveryStep :
    (∃ t, busyIdle.Inv ∧ step busyIdle = .next t) ∧
    ∃ t, (State.reset.withInputs [.host (.write 0x1FFC .word 1#32)]).Inv ∧
      step (State.reset.withInputs [.host (.write 0x1FFC .word 1#32)]) = .next t :=
  ⟨⟨_, by decide, rfl⟩, ⟨_, by decide, rfl⟩⟩

theorem witness_RotateRightMovesBits : (0 < 32 ∧ 0 < 32) ∧ (31 < 32 ∧ 31 < 32) ∧ (63 < 64 ∧ 63 < 64) := by decide

theorem witness_ByteSwapReversesBytes : (0 < 4 ∧ 3 < 4) ∧ (0 < 8 ∧ 7 < 8) := by decide

end witnesses

end Sys2Proof.Tests
end

/-! The `STATUS` register as the host sees it (10_state.md R17): one lemma says what every bit of it is, and the fields
follow from it. -/

namespace Sys2Proof.Machine

@[simp] theorem getElem_bit_zero (b : Bool) : (bit b)[0] = b := by
  cases b <;> rfl

/-- Every bit of `STATUS` (R17), from bit 0 up; above bit 7 `s.fcode.getLsbD` is out of its range and gives 0. -/
theorem State.getLsbD_status (s : State) (i : Nat) :
    s.status.getLsbD i =
      match i with
      | 0 => s.busy
      | 1 => s.fault
      | 2 => s.ad.isSome
      | 3 => false
      | k + 4 => s.fcode.getLsbD k := by
  change BitVec.getLsbD (w := 24 + 4 + 1 + 1 + 1 + 1)
    (0#24 ++ s.fcode ++ 0#1 ++ bit s.ad.isSome ++ bit s.fault ++ bit s.busy) i = _
  match i with
  | 0 | 1 | 2 | 3 => simp only [BitVec.getLsbD_append]; simp
  | k + 4 =>
    have hfcode : s.fcode.getLsbD k = true → k < 4 := BitVec.lt_of_getLsbD
    simp only [BitVec.getLsbD_append]; simpa using hfcode

theorem State.getLsbD_status_four_add (s : State) (k : Nat) : s.status.getLsbD (4 + k) = s.fcode.getLsbD k := by
  rw [Nat.add_comm, State.getLsbD_status]

/-- `FCODE` is bits 7:4 of `STATUS`. -/
theorem State.status_fcode (s : State) : s.status.extractLsb' 4 4 = s.fcode :=
  BitVec.eq_of_getLsbD_eq fun i hi => by
    simp only [BitVec.getLsbD_extractLsb', State.getLsbD_status_four_add, hi, decide_true, Bool.true_and]

/-- Bits 31:8 of `STATUS` lie above `FCODE` and are 0. -/
theorem State.status_high (s : State) : s.status.extractLsb' 8 24 = 0#24 :=
  BitVec.eq_of_getLsbD_eq fun i _ => by
    have habove : s.fcode.getLsbD (4 + i) = false := BitVec.getLsbD_of_ge _ _ (Nat.le_add_right 4 i)
    rw [BitVec.getLsbD_extractLsb', Nat.add_assoc 4 4 i, State.getLsbD_status_four_add, habove]
    simp

/-- Settles O36: the fields are read off `State.getLsbD_status`, and an accepted write to `STATUS` leaves the state. -/
theorem statusFields : Obligations.StatusFields := by
  intro s
  refine ⟨⟨s.getLsbD_status 0, s.getLsbD_status 1, s.getLsbD_status 2, s.getLsbD_status 3, s.status_fcode,
    s.status_high⟩, fun d rest hidle => ?_⟩
  exact step_write hidle (target_status _)

end Sys2Proof.Machine

/-! The decoder by the fields of its word (30_encoding.md R51): the reserved bits decide first, then the opcode map. -/

namespace Sys2Proof

theorem decodeWord_of_rsvField_ne_zero {w : U32} (h : rsvField w ≠ 0#24) : decodeWord w = .error .reservedBits :=
  if_pos h

theorem decodeWord_of_rsvField_eq_zero {w : U32} (h : rsvField w = 0#24) : decodeWord w = decodeOp (opField w) :=
  if_neg (not_not_intro h)

/-- The opcode map takes each command's opcode (R53) back to the command. -/
@[simp] theorem decodeOp_encodeOp (i : Instr) : decodeOp (encodeOp i) = .ok i := by
  cases i <;> rfl

theorem decodeOp_of_notMem {op : BitVec 8}
    (h : op ∉ [0x01#8, 0x02#8, 0x03#8, 0x08#8, 0x09#8, 0x0A#8, 0x0B#8]) : decodeOp op = .error .unknownOpcode := by
  simp only [List.mem_cons, List.not_mem_nil, or_false, not_or] at h
  simp [decodeOp, h]

/-- A word with `RSV = 0` and a command's opcode in `OP` decodes to that command. -/
theorem decodeWord_of_opField_eq {w : U32} {i : Instr} (hrsv : rsvField w = 0#24) (hop : opField w = encodeOp i) :
    decodeWord w = .ok i := by
  rw [decodeWord_of_rsvField_eq_zero hrsv, hop, decodeOp_encodeOp]

/-- Settles O3: a nonzero `RSV` decides alone; with `RSV = 0` each of the seven opcodes is a command's `encodeOp`, and
`decodeOp` rejects every other. -/
theorem decodingIsTotalAndAsTheMapSays : Obligations.DecodingIsTotalAndAsTheMapSays := by
  intro w
  refine ⟨fun hrsv => ⟨_, decodeWord_of_rsvField_ne_zero hrsv⟩, fun hrsv => ?_⟩
  have command (i : Instr) (hop : opField w = encodeOp i) : decodeWord w = .ok i := decodeWord_of_opField_eq hrsv hop
  refine ⟨command .hash32, command .hash64, command .hash64s, command .adNew, command .adSeed, command .adFeed,
    command .adFin, fun hop => ⟨.unknownOpcode, ?_⟩⟩
  rw [decodeWord_of_rsvField_eq_zero hrsv]
  exact decodeOp_of_notMem hop

end Sys2Proof

/-! Issue (30_encoding.md R55), by the fault flag. -/

namespace Sys2Proof.Machine

theorem State.issue_of_fault_eq_false {s : State} (h : s.fault = false) (w : U32) :
    s.issue w = { s with pend := w, busy := true } := by
  simp [State.issue, h]

theorem State.issue_of_fault {s : State} (h : s.fault = true) (w : U32) : s.issue w = s := by
  simp [State.issue, h]

/-- On an idle block the next entry, a word write to `CMD`, is the issue of its word. -/
theorem step_write_cmd {s : State} (hidle : s.busy = false) (w : U32) (rest : List Input) :
    step (s.withInputs (.host (.write 0x0000 .word w) :: rest)) = .next ((s.withInputs rest).issue w) :=
  step_write hidle (target_cmd _)

/-- Settles O6: the step is `State.issue`, which latches or drops by the fault flag. -/
theorem commandWriteIssuesOrIsDropped : Obligations.CommandWriteIssuesOrIsDropped := by
  intro s w rest hidle
  rw [step_write_cmd hidle]
  constructor
  · intro hfault
    rw [State.issue_of_fault_eq_false (by simpa using hfault)]
    rfl
  · intro hfault
    rw [State.issue_of_fault (by simpa using hfault)]

end Sys2Proof.Machine

/-! The rotates (40_primitives.md R64, R65) are the library's `BitVec.rotateRight`, and what that does to a bit is said
once, for every width. -/

namespace Sys2Proof.Machine

/-- The rules' two cases are one formula: at distance 0 it ors the value with one shifted out entirely. -/
theorem rotateRight_eq_ite {w r : Nat} (v : BitVec w) (hr : r < w) :
    v.rotateRight r = if r = 0 then v else (v >>> r) ||| (v <<< (w - r)) := by
  rw [BitVec.rotateRight_def, Nat.mod_eq_of_lt hr]
  split
  case isTrue h => subst h; simp
  case isFalse => rfl

theorem ror32_eq_rotateRight (v : U32) {r : Nat} (hr : r < 32) : ror32 v r = v.rotateRight r :=
  (rotateRight_eq_ite v hr).symm

theorem ror64_eq_rotateRight (v : U64) {r : Nat} (hr : r < 64) : ror64 v r = v.rotateRight r :=
  (rotateRight_eq_ite v hr).symm

/-- A bit moves down by `r`; the low `r` bits wrap around to the top. -/
theorem getLsbD_rotateRight_eq_mod {w r i : Nat} (v : BitVec w) (hr : r < w) (hi : i < w) :
    (v.rotateRight r).getLsbD i = v.getLsbD ((i + r) % w) := by
  rw [BitVec.getLsbD_rotateRight_of_lt hr]
  by_cases hwrap : i < w - r
  · have hmod : (i + r) % w = r + i := by rw [Nat.mod_eq_of_lt (by omega), Nat.add_comm]
    simp [hwrap, hmod]
  · have hmod : (i + r) % w = i - (w - r) := by
      rw [Nat.mod_eq_sub_mod (by omega), Nat.mod_eq_of_lt (by omega)]; omega
    simp [hwrap, hi, hmod]

/-- Settles O52: both rotates are `BitVec.rotateRight`, whose bits `getLsbD_rotateRight_eq_mod` gives at every width. -/
theorem rotateRightMovesBits : Obligations.RotateRightMovesBits := by
  constructor
  · intro v r i hr hi
    rw [ror32_eq_rotateRight v hr, getLsbD_rotateRight_eq_mod v hr hi]
  · intro v r i hr hi
    rw [ror64_eq_rotateRight v hr, getLsbD_rotateRight_eq_mod v hr hi]

end Sys2Proof.Machine

/-! The seeded hash (43_seeded.md R102, R103): one combine applied to what HASH64 writes on the same state. -/

namespace Sys2Proof.Machine

/-- Settles O21: over a written message the unseeded digest `d` is computed, HASH64 writes `d` and HASH64S writes
`seedDigest d SEED`. -/
theorem hash64SeededIsOneCombineOfHash64 : Obligations.Hash64SeededIsOneCombineOfHash64 := by
  intro s b hmessage
  have hlen : s.len.toNat ≤ s.params.bufBytes := hmessage.1
  obtain ⟨d, hd⟩ := hmessage.computes (digest64_onlyUnwritten s.view)
  have hunseeded : exec .hash64 s = .next (s.setResult d).retire := execHash64_ok hlen hd
  have hseeded : exec .hash64s s = .next (s.setResult (seedDigest d s.seed)).retire := execHash64s_ok hlen hd
  refine ⟨_, _, hunseeded, exec_completed hunseeded fun _ => hlen, ?_,
    hseeded, exec_completed hseeded fun _ => hlen, ?_, ?_⟩
  · rw [State.retire_ad, State.setResult_ad]
  · rw [State.retire_ad, State.setResult_ad]
  · simp only [State.retire_result, State.setResult_result, seedDigest]

end Sys2Proof.Machine

/-! The adapter's commands (44_adapter.md R105 to R109): what each of them ends in, said once, and from it what they do
to `AD` and `RESULT`. -/

namespace Sys2Proof.Machine

/-- A command that does not read the message never looks at `LEN`, so it ends without a fault. -/
theorem exec_completed_of_readsMessage_eq_false {i : Instr} {s t : State} (h : exec i s = .next t)
    (hi : readsMessage i = false) : t.CompletedFrom s :=
  exec_completed h fun hreads => absurd hreads (Bool.eq_false_iff.mp hi)

section adapterCommands

variable {s : State}

theorem execAdNew_eq : exec .adNew s = .next (s.setAd none).retire := rfl

theorem execAdSeed_eq : exec .adSeed s = .next (s.setAd (some s.seed)).retire := rfl

theorem execAdFin_eq : exec .adFin s = .next (s.setResult (heldValue s.ad)).retire := rfl

@[simp] theorem heldValue_none : heldValue none = 0#64 := rfl

@[simp] theorem heldValue_some (v : U64) : heldValue (some v) = v := rfl

/-- A feed computes the unseeded digest whatever the adapter holds; a held value is only combined into it (R102). -/
theorem feedDigest_ok {v : View} {d : U64} (h : digest64 v = .ok d) (ad : Option U64) :
    feedDigest ad v = .ok (ad.elim d (seedDigest d)) := by
  cases ad with
  | none => exact h
  | some k => rw [feedDigest, hash64Seeded, h]; rfl

theorem execAdFeed_ok {d : U64} (hl : s.len.toNat ≤ s.params.bufBytes) (h : digest64 s.view = .ok d) :
    exec .adFeed s = .next (s.setAd (some (s.ad.elim d (seedDigest d)))).retire :=
  messageCommand_ok (commit := fun d s => s.setAd (some d)) hl (feedDigest_ok h s.ad)

theorem execAdFeed_lengthRange (hl : s.params.bufBytes < s.len.toNat) :
    exec .adFeed s = .next (s.raiseFault .lengthRange) :=
  messageCommand_lengthRange (compute := feedDigest s.ad) (commit := fun d s => s.setAd (some d)) hl

end adapterCommands

/-- Settles O23: over a written message the unseeded digest `d` is computed, which is what HASH64 writes, and the feed
puts `d` or `seedDigest d k` into `AD`; with `LEN` out of range it raises before reading. -/
theorem feedReplacesTheAdapterState : Obligations.FeedReplacesTheAdapterState := by
  constructor
  · intro s b hmessage
    have hlen : s.len.toNat ≤ s.params.bufBytes := hmessage.1
    obtain ⟨d, hd⟩ := hmessage.computes (digest64_onlyUnwritten s.view)
    have hfeed := execAdFeed_ok hlen hd
    refine ⟨_, _, execHash64_ok hlen hd, hfeed, exec_completed hfeed fun _ => hlen, ?_, fun hnone => ?_,
      fun k hsome => ?_⟩
    · rw [State.retire_result, State.setAd_result]
    · simp [hnone]
    · simp [hsome, seedDigest]
  · intro s hlong
    exact ⟨_, execAdFeed_lengthRange hlong, State.raiseFault_ad _ _, State.raiseFault_fault _ _,
      State.raiseFault_fcode _ _, State.raiseFault_busy _ _⟩

/-- Settles O22: both constructions end without looking at the message, each with its own `AD`. -/
theorem adapterConstructions : Obligations.AdapterConstructions := by
  intro s
  constructor
  · refine ⟨_, execAdNew_eq, exec_completed_of_readsMessage_eq_false execAdNew_eq rfl, ?_, ?_⟩
    · rw [State.retire_ad, State.setAd_ad]
    · rw [State.retire_result, State.setAd_result]
  · refine ⟨_, execAdSeed_eq, exec_completed_of_readsMessage_eq_false execAdSeed_eq rfl, ?_, ?_⟩
    · rw [State.retire_ad, State.setAd_ad]
    · rw [State.retire_result, State.setAd_result]

/-- Settles O24: AD.FIN writes `heldValue AD` to `RESULT` and leaves `AD`. -/
theorem finalizeReturnsTheHeldValue : Obligations.FinalizeReturnsTheHeldValue := by
  intro s
  refine ⟨_, execAdFin_eq, exec_completed_of_readsMessage_eq_false execAdFin_eq rfl, ?_, fun hnone => ?_,
    fun v hsome => ?_⟩
  · rw [State.retire_ad, State.setResult_ad]
  · simp [hnone]
  · simp [hsome]

end Sys2Proof.Machine

/-! The faults a command word takes (60_exceptions.md R122, R123): ILLEGAL_COMMAND by its decoding alone, LENGTH_RANGE by
`LEN` alone, each raised before anything of the data state is written. -/

namespace Sys2Proof

/-- The two ways of being illegal (R51), as one fact about the decoder. -/
theorem decodeWord_error_of_illegal {w : U32}
    (h : rsvField w ≠ 0#24 ∨ opField w ∉ [0x01#8, 0x02#8, 0x03#8, 0x08#8, 0x09#8, 0x0A#8, 0x0B#8]) :
    ∃ e, decodeWord w = .error e := by
  by_cases hrsv : rsvField w = 0#24
  case pos =>
    have hop := h.resolve_left (not_not_intro hrsv)
    exact ⟨.unknownOpcode, by rw [decodeWord_of_rsvField_eq_zero hrsv, decodeOp_of_notMem hop]⟩
  case neg => exact ⟨.reservedBits, decodeWord_of_rsvField_ne_zero hrsv⟩

end Sys2Proof

namespace Sys2Proof.Machine

section commandFaults

variable {s : State} {i : Instr}

/-- The engine's turn on a latched word that does not decode raises ILLEGAL_COMMAND. -/
theorem step_illegal {e : DecodeError} (hbusy : s.busy = true) (hnext : engineIsNext s.inputs = true)
    (h : decodeWord s.pend = .error e) : step s = .next (s.takeTurn.raiseFault .illegalCommand) := by
  rw [step_engineIsNext hbusy hnext]
  exact complete_illegal (by rwa [State.takeTurn_pend])

/-- R123: with `LEN` out of range a command that reads the message raises before its first read. -/
theorem exec_lengthRange (hreads : readsMessage i = true) (hlong : s.params.bufBytes < s.len.toNat) :
    exec i s = .next (s.raiseFault .lengthRange) := by
  rcases exec_cases i s with ⟨-, -, h⟩ | ⟨hshort, -⟩ | ⟨-, hshort, -⟩
  · exact h
  · exact absurd hlong (Nat.not_lt.mpr (hshort hreads))
  · exact absurd hlong (Nat.not_lt.mpr hshort)

/-- A command that does not read the message has only the one way to end: it completes. -/
theorem exists_exec_completed_of_readsMessage_eq_false (hi : readsMessage i = false) (s : State) :
    ∃ t, exec i s = .next t ∧ t.CompletedFrom s := by
  rcases exec_cases i s with ⟨hreads, -⟩ | ⟨-, r, a, -, -, h⟩ | ⟨hreads, -⟩
  · exact absurd hreads (Bool.eq_false_iff.mp hi)
  · exact ⟨_, h, exec_completed_of_readsMessage_eq_false h hi⟩
  · exact absurd hreads (Bool.eq_false_iff.mp hi)

end commandFaults

theorem readsMessage_of_mem : ∀ i ∈ [Instr.hash32, .hash64, .hash64s, .adFeed], readsMessage i = true := by
  decide

theorem readsMessage_eq_false_of_mem : ∀ i ∈ [Instr.adNew, .adSeed, .adFin], readsMessage i = false := by
  decide

/-- Settles O5: the word does not decode, and the fault is raised on the state the engine's turn starts from, which
differs from `s` in the timeline alone. -/
theorem illegalWordTakesIllegalCommandFault : Obligations.IllegalWordTakesIllegalCommandFault := by
  intro s hbusy hnext hillegal
  obtain ⟨e, he⟩ := decodeWord_error_of_illegal hillegal
  refine ⟨_, step_illegal hbusy hnext he, State.raiseFault_fault _ _, State.raiseFault_fcode _ _,
    State.raiseFault_busy _ _, ?_⟩
  simp

/-- Settles O26: the four commands that read the message raise before the first read; the other three never look at
`LEN`. -/
theorem lengthBeyondTheBufferTakesLengthRangeFault : Obligations.LengthBeyondTheBufferTakesLengthRangeFault := by
  constructor
  · intro i s hi hlong
    refine ⟨_, exec_lengthRange (readsMessage_of_mem i hi) hlong, State.raiseFault_fault _ _,
      State.raiseFault_fcode _ _, State.raiseFault_busy _ _, ?_⟩
    simp
  · intro i s hi
    exact exists_exec_completed_of_readsMessage_eq_false (readsMessage_eq_false_of_mem i hi) s

end Sys2Proof.Machine

/-! The reset (70_reset_and_hazards.md R140 to R143): its values are the same from every state, so nothing of the state
before it, a running command or a fault included, can remain. -/

namespace Sys2Proof.Machine

/-- `STATUS` (R17) is 0 once its four fields are. -/
theorem State.status_eq_zero {s : State} (hbusy : s.busy = false) (hfault : s.fault = false) (had : s.ad = none)
    (hfcode : s.fcode = 0#4) : s.status = 0#32 := by
  simp [State.status, State.adValid, bit, hbusy, hfault, had, hfcode]

@[simp] theorem State.applyReset_status (s : State) : s.applyReset.status = 0#32 :=
  State.status_eq_zero s.applyReset_busy s.applyReset_fault s.applyReset_ad s.applyReset_fcode

/-- R142: after a reset no byte of the message has a value. -/
@[simp] theorem State.applyReset_byteAt (s : State) (a : Nat) : s.applyReset.byteAt a = none := by
  rw [State.byteAt, State.applyReset_msg, Memory.read_nil]

/-- Settles O48: `STATUS` is 0 by its fields and every byte reads as unwritten because the buffer is empty; the rest is
the definition of the reset state. -/
theorem resetValues : Obligations.ResetValues := by
  have hstatus : State.reset.status = 0#32 := State.status_eq_zero rfl rfl rfl rfl
  exact ⟨rfl, rfl, rfl, rfl, rfl, rfl, rfl, hstatus, Memory.read_nil, rfl⟩

/-- Settles O49: whoever would move otherwise, the step is `State.applyReset`, which keeps nothing but the parameters and
the outside world. -/
theorem resetFromAnyState : Obligations.ResetFromAnyState := by
  intro s rest
  refine ⟨(s.withInputs rest).applyReset, step_reset rfl, ?_⟩
  simp

end Sys2Proof.Machine

/-! Decode and encode are inverse to each other (30_encoding.md R51, R53): a word is its two fields, and a command fixes
both of them. -/

namespace Sys2Proof

/-- R50: a word is nothing but `RSV` above `OP`. -/
theorem rsvField_append_opField (w : U32) : rsvField w ++ opField w = w :=
  (BitVec.extractLsb'_append_extractLsb'_eq_extractLsb' (start₁ := 0) (len₁ := 8) (len₂ := 24) rfl).trans
    BitVec.extractLsb'_eq_self

@[simp] theorem rsvField_encode (i : Instr) : rsvField (encode i) = 0#24 := by
  cases i <;> rfl

@[simp] theorem opField_encode (i : Instr) : opField (encode i) = encodeOp i := by
  cases i <;> rfl

theorem decodeOp_eq_ok_iff {op : BitVec 8} {i : Instr} : decodeOp op = .ok i ↔ op = encodeOp i := by
  constructor
  · intro h
    unfold decodeOp at h
    split_ifs at h <;> cases h <;> assumption
  · rintro rfl
    exact decodeOp_encodeOp i

theorem decodeWord_encode (i : Instr) : decodeWord (encode i) = .ok i :=
  decodeWord_of_opField_eq (rsvField_encode i) (opField_encode i)

theorem decodeWord_eq_ok_iff {w : U32} {i : Instr} : decodeWord w = .ok i ↔ w = encode i := by
  constructor
  · intro h
    by_cases hrsv : rsvField w = 0#24
    case neg => rw [decodeWord_of_rsvField_ne_zero hrsv] at h; cases h
    case pos =>
      rw [decodeWord_of_rsvField_eq_zero hrsv, decodeOp_eq_ok_iff] at h
      rw [← rsvField_append_opField w, hrsv, h]
      rfl
  · rintro rfl
    exact decodeWord_encode i

/-- A word given as a number decodes as the word does. -/
theorem decodeTableWord_of_decodeWord {w : U32} {i : Instr} (h : decodeWord w = .ok i) :
    decodeTableWord 32 w.toNat = some i := by
  simp [decodeTableWord, Nat.mod_eq_of_lt w.isLt, h]

/-- Settles O2: both directions by the two fields of the word. -/
theorem decodeAndEncodeAgree : Obligations.DecodeAndEncodeAgree :=
  ⟨fun i => decodeTableWord_of_decodeWord (decodeWord_encode i), fun _ _ => decodeWord_eq_ok_iff⟩

/-- Settles O1: each of the seven words is the encoding of its command. -/
theorem sevenWordsDecodeToTheSevenCommands : Obligations.SevenWordsDecodeToTheSevenCommands := by
  simp only [Obligations.SevenWordsDecodeToTheSevenCommands, decodeWord_eq_ok_iff]
  decide

end Sys2Proof

/-! What a step can end in (20_memory.md R40, 70_reset_and_hazards.md R146): the five ways, each with its next state.
The claims about single steps are case analyses over them. -/

namespace Sys2Proof.Machine

variable {s t : State}

/-- What a command that answers a next state has done: taken LENGTH_RANGE, or written its own `RESULT` or `AD`. -/
theorem exec_next_cases {i : Instr} (h : exec i s = .next t) :
    (s.params.bufBytes < s.len.toNat ∧ t = s.raiseFault .lengthRange) ∨
    ∃ r a, (writesResult i = false → r = s.result) ∧ (writesAdapter i = false → a = s.ad) ∧
      t = ((s.setResult r).setAd a).retire := by
  rcases exec_cases i s with ⟨-, hlong, h'⟩ | ⟨-, r, a, hr, ha, h'⟩ | ⟨-, -, a, -, -, h'⟩ <;> rw [h'] at h <;> cases h
  · exact .inl ⟨hlong, rfl⟩
  · exact .inr ⟨r, a, hr, ha, rfl⟩

/-- What a completion can leave (30_encoding.md R56): a fault taken, or the command's own `RESULT` or `AD`. -/
theorem complete_next_cases (h : complete s = .next t) :
    (∃ c, t = s.raiseFault c) ∨
    ∃ i r a, decodeWord s.pend = .ok i ∧ (writesResult i = false → r = s.result) ∧
      (writesAdapter i = false → a = s.ad) ∧ t = ((s.setResult r).setAd a).retire := by
  rcases complete_cases s with ⟨i, hi, hexec⟩ | hillegal
  · rcases exec_next_cases (hexec ▸ h) with ⟨-, rfl⟩ | ⟨r, a, hr, ha, rfl⟩
    · exact .inl ⟨_, rfl⟩
    · exact .inr ⟨i, r, a, hi, hr, ha, rfl⟩
  · rw [hillegal] at h
    cases h
    exact .inl ⟨_, rfl⟩

/-- `s.StepsTo t`: one of the five ways in which a step leads from `s` to `t`. -/
inductive State.StepsTo (s : State) : State → Prop
  | completes {t : State} (hbusy : s.busy = true) (hnext : engineIsNext s.inputs = true)
      (h : complete s.takeTurn = .next t) : StepsTo s t
  | idles (hidle : s.busy = false) : StepsTo s s.takeTurn
  | resets {rest : List Input} (hinputs : s.inputs = .reset :: rest) : StepsTo s (s.withInputs rest).applyReset
  | reads {off : Nat} {w : Width} {g : Target} {rest : List Input} (hinputs : s.inputs = .host (.read off w) :: rest)
      (hg : target s.params.bufBytes off w = .ok g) : StepsTo s ((s.withInputs rest).hostRead w g)
  | writes {off : Nat} {w : Width} {d : U32} {g : Target} {rest : List Input}
      (hinputs : s.inputs = .host (.write off w d) :: rest) (hidle : s.busy = false)
      (hg : target s.params.bufBytes off w = .ok g) : StepsTo s ((s.withInputs rest).hostWrite w d g)

theorem stepsTo_of_step (h : step s = .next t) : s.StepsTo t := by
  rcases step_cases s with ⟨hbusy, hnext, h'⟩ | ⟨hidle, h'⟩ | ⟨rest, hinputs, h'⟩ | ⟨a, rest, hinputs, haccepts, h'⟩
  · exact .completes hbusy hnext (h' ▸ h)
  · rw [h'] at h; cases h; exact .idles hidle
  · rw [h'] at h; cases h; exact .resets hinputs
  · rw [h'] at h
    rcases hostAccess_cases a (s.withInputs rest) with
      ⟨g, hg, ⟨off, w, rfl, h''⟩ | ⟨off, w, d, rfl, h''⟩⟩ | ⟨r, -, h''⟩ <;> rw [h''] at h <;> cases h
    · exact .reads hinputs hg
    · exact .writes hinputs (by simpa [State.accepts, isStatusRead] using haccepts) hg

end Sys2Proof.Machine

/-! The invariant (`State.Inv`): what each way of stepping does to the fields it speaks of. -/

namespace Sys2Proof.Machine

variable {s t : State}

/-- The invariant speaks of the parameters, the buffer, `FCODE`, and of `BUSY` in the fault state. -/
theorem State.Inv.of_frame (h : s.Inv) (hparams : t.params = s.params) (hmsg : t.msg = s.msg)
    (hcode : t.fcodeLegal) (hbusy : t.fault = true → t.busy = false) : t.Inv := by
  obtain ⟨hlegal, hwf, hinBuffer, -, -⟩ := h
  refine ⟨?_, ?_, ?_, hcode, hbusy⟩
  · rwa [hparams]
  · rwa [hmsg]
  · rwa [State.msgInBuffer, hmsg, hparams]

theorem State.fcodeLegal_of_eq (hfault : t.fault = s.fault) (hfcode : t.fcode = s.fcode) (h : s.fcodeLegal) :
    t.fcodeLegal := by
  rwa [State.fcodeLegal, hfault, hfcode]

theorem State.fcodeLegal_raiseFault (s : State) (c : FaultCause) : (s.raiseFault c).fcodeLegal := by
  cases c <;> simp [State.fcodeLegal, FaultCause.code]

/-- An update that leaves all of them, `BUSY` included, keeps the invariant. -/
theorem State.Inv.of_same (h : s.Inv) (hparams : t.params = s.params) (hmsg : t.msg = s.msg)
    (hfault : t.fault = s.fault) (hfcode : t.fcode = s.fcode) (hbusy : t.busy = s.busy) : t.Inv := by
  obtain ⟨-, -, -, hcode, hrun⟩ := id h
  exact h.of_frame hparams hmsg (State.fcodeLegal_of_eq hfault hfcode hcode) (by rwa [hfault, hbusy])

theorem State.inv_takeTurn (h : s.Inv) : s.takeTurn.Inv :=
  h.of_same s.takeTurn_params s.takeTurn_msg s.takeTurn_fault s.takeTurn_fcode s.takeTurn_busy

theorem State.inv_withInputs (h : s.Inv) (xs : List Input) : (s.withInputs xs).Inv := h

theorem State.inv_hostRead (h : s.Inv) (w : Width) (g : Target) : (s.hostRead w g).Inv := h

/-- A completed or faulted command leaves `BUSY` 0 and a legal `FCODE`. -/
theorem State.inv_complete (h : s.Inv) (ht : complete s = .next t) : t.Inv := by
  obtain ⟨-, -, -, hcode, -⟩ := id h
  obtain ⟨hparams, hmsg, -, -, -, -, hbusy⟩ := complete_frame ht
  refine h.of_frame hparams hmsg ?_ fun _ => hbusy
  rcases complete_next_cases ht with ⟨c, rfl⟩ | ⟨i, r, a, -, -, -, rfl⟩
  · exact State.fcodeLegal_raiseFault s c
  · exact hcode

theorem State.inv_resetWith {p : Params} (h : p.legal) : (State.resetWith p).Inv :=
  ⟨h, Memory.wf_nil, by simp [State.msgInBuffer, State.resetWith], rfl, fun _ => rfl⟩

theorem State.inv_applyReset (h : s.Inv) : s.applyReset.Inv := State.inv_resetWith h.1

/-- An issue is dropped in the fault state, so it starts no command there. -/
theorem State.inv_issue (h : s.Inv) (d : U32) : (s.issue d).Inv := by
  by_cases hfault : s.fault = true
  case pos => rwa [State.issue_of_fault hfault]
  case neg =>
    have hfault : s.fault = false := Bool.eq_false_iff.mpr hfault
    obtain ⟨-, -, -, hcode, -⟩ := id h
    rw [State.issue_of_fault_eq_false hfault]
    exact h.of_frame rfl rfl hcode fun hf => absurd hf (Bool.eq_false_iff.mp hfault)

/-- A write to the window (R36) keeps the buffer canonical, and inside its capacity if it lies inside itself. -/
theorem State.inv_writeWindow (h : s.Inv) {i : Nat} {w : Width} (hfits : i + w.bytes ≤ s.params.bufBytes) (d : U32) :
    (s.writeWindow i d w).Inv := by
  obtain ⟨hlegal, hwf, hinBuffer, hrest⟩ := h
  cases w with
  | word =>
    refine ⟨hlegal, Memory.wf_writeWord hwf i d, fun c hc => ?_, hrest⟩
    rcases Memory.mem_writeWord hc with ⟨-, hlt⟩ | hold
    · exact Nat.lt_of_lt_of_le hlt hfits
    · exact hinBuffer c hold
  | byte | half =>
    refine ⟨hlegal, Memory.wf_write hwf i _, fun c hc => ?_, hrest⟩
    rcases Memory.mem_write hc with rfl | hold
    · exact Nat.lt_of_lt_of_le (Nat.lt_add_of_pos_right (by decide)) hfits
    · exact hinBuffer c hold

theorem State.inv_hostWrite (h : s.Inv) {off : Nat} {w : Width} {g : Target}
    (hg : target s.params.bufBytes off w = .ok g) (d : U32) : (s.hostWrite w d g).Inv := by
  cases g with
  | cmd => exact State.inv_issue h d
  | window i => exact State.inv_writeWindow h (target_window_bound hg) d
  | status | len | seedLo | seedHi | resultLo | resultHi | reserved => exact h

/-- Settles O51: each of the five ways of stepping keeps the invariant. -/
theorem invariantIsKeptByEveryStep : Obligations.InvariantIsKeptByEveryStep := by
  intro s t hinv hstep
  cases stepsTo_of_step hstep with
  | completes _ _ ht => exact State.inv_complete (State.inv_takeTurn hinv) ht
  | idles => exact State.inv_takeTurn hinv
  | resets => exact State.inv_applyReset (State.inv_withInputs hinv _)
  | reads => exact State.inv_hostRead (State.inv_withInputs hinv _) _ _
  | @writes _ _ d _ rest _ _ hg => exact State.inv_hostWrite (State.inv_withInputs hinv rest) hg d

/-- Settles O50: the empty buffer and the zero flags of reset meet the invariant whatever the parameters. -/
theorem invariantHoldsAtReset : Obligations.InvariantHoldsAtReset :=
  ⟨State.inv_resetWith (by decide), fun _ hlegal => State.inv_resetWith hlegal⟩

end Sys2Proof.Machine

/-! The engine's turn and the interlock (30_encoding.md R55, R56; 70_reset_and_hazards.md R146, R151). -/

namespace Sys2Proof.Machine

variable {s t : State}

section takeTurn

theorem State.takeTurn_of_engine {rest : List Input} (h : s.inputs = .engine :: rest) :
    s.takeTurn = s.withInputs rest := by
  simp [State.takeTurn, h]

theorem State.takeTurn_of_not_engine (h : ∀ rest, s.inputs ≠ .engine :: rest) : s.takeTurn = s := by
  unfold State.takeTurn
  split
  case h_1 rest hinputs => exact absurd hinputs (h rest)
  case h_2 => rfl

/-- The engine's turn takes at most its own entry off the timeline. -/
theorem State.takeTurn_inputs_cases (s : State) :
    s.takeTurn = s.withInputs s.takeTurn.inputs ∧
      (s.takeTurn.inputs = s.inputs ∨ s.inputs = .engine :: s.takeTurn.inputs) := by
  by_cases h : ∃ rest, s.inputs = .engine :: rest
  case pos =>
    obtain ⟨rest, hinputs⟩ := h
    rw [State.takeTurn_of_engine hinputs]
    exact ⟨rfl, .inr hinputs⟩
  case neg =>
    rw [State.takeTurn_of_not_engine (not_exists.mp h)]
    exact ⟨rfl, .inl rfl⟩

end takeTurn

/-- Settles O4: the engine completes on `takeTurn`, whose `PEND` is that of `s`. -/
theorem stepRunsTheLatchedCommand : Obligations.StepRunsTheLatchedCommand := by
  intro s i hbusy hnext hdecode
  refine ⟨?_, s.takeTurn_inputs_cases⟩
  rw [step_engineIsNext hbusy hnext]
  exact complete_ok (by rwa [State.takeTurn_pend])

/-- A host write sets `BUSY` only by an issue outside the fault state. -/
theorem State.eq_cmd_of_hostWrite_busy {w : Width} {d : U32} {g : Target} (hidle : s.busy = false)
    (h : (s.hostWrite w d g).busy = true) : g = .cmd ∧ s.fault = false := by
  cases g with
  | cmd =>
    refine ⟨rfl, Bool.eq_false_iff.mpr fun hfault => ?_⟩
    rw [State.hostWrite, State.issue_of_fault hfault, hidle] at h
    cases h
  | window i => cases w <;> exact nomatch hidle.symm.trans h
  | status | len | seedLo | seedHi | resultLo | resultHi | reserved =>
    exact nomatch hidle.symm.trans h

/-- Settles O7: of the five ways of stepping only a write leaves `BUSY` set on an idle block, and that write is an
issue. -/
theorem busyIsSetOnlyByAnIssuedCommand : Obligations.BusyIsSetOnlyByAnIssuedCommand := by
  intro s t hstep hidle hset
  cases stepsTo_of_step hstep with
  | completes hbusy => exact nomatch hidle.symm.trans hbusy
  | idles => exact nomatch hidle.symm.trans (s.takeTurn_busy.symm.trans hset)
  | resets => exact nomatch hset
  | reads => exact nomatch hidle.symm.trans hset
  | @writes off w d g rest hinputs _ hg =>
    obtain ⟨rfl, hfault⟩ := State.eq_cmd_of_hostWrite_busy (s := s.withInputs rest) hidle hset
    obtain ⟨rfl, rfl⟩ := target_cmd_iff.mp hg
    refine ⟨hfault, d, rest, hinputs, ?_⟩
    rw [State.hostWrite, State.issue_of_fault_eq_false hfault]

/-- Settles O8: the held access leaves the turn to the engine, as an engine entry before it would. -/
theorem hostIsHeldWhileBusy : Obligations.HostIsHeldWhileBusy := by
  intro s a rest hbusy hnotStatus
  have hheld : step (s.withInputs (.host a :: rest)) = complete (s.withInputs (.host a :: rest)) := by
    rw [step_held rfl (by simp [State.accepts, hbusy, hnotStatus]), engineTurn_busy (by simpa using hbusy)]
  have hengine : step (s.withInputs (.engine :: .host a :: rest)) = complete (s.withInputs (.host a :: rest)) := by
    rw [step_engine rfl, State.withInputs_withInputs, engineTurn_busy (by simpa using hbusy)]
  refine ⟨hheld.trans hengine.symm, fun t ht => ?_⟩
  obtain ⟨-, -, -, -, hinputs, -, hdone⟩ := complete_frame (hheld.symm.trans ht)
  exact ⟨hdone, hinputs⟩

/-- Settles O10: on a busy block a step that is no reset is the completion, which ends `BUSY`, or a read. -/
theorem operandsAreFixedWhileBusy : Obligations.OperandsAreFixedWhileBusy := by
  intro s t hbusy hstep hnoReset
  cases stepsTo_of_step hstep with
  | completes _ _ h =>
    obtain ⟨hparams, hmsg, hlen, hseed, -, -, hdone⟩ := complete_frame h
    refine ⟨?_, ?_, ?_, ?_, fun hstill => nomatch hdone.symm.trans hstill⟩
    · rw [hmsg, State.takeTurn_msg]
    · rw [hlen, State.takeTurn_len]
    · rw [hseed, State.takeTurn_seed]
    · rw [hparams, State.takeTurn_params]
  | idles hidle => exact nomatch hidle.symm.trans hbusy
  | resets hinputs => exact absurd (congrArg List.head? hinputs) hnoReset
  | reads => exact ⟨rfl, rfl, rfl, rfl, fun _ => ⟨rfl, rfl, rfl, rfl, rfl⟩⟩
  | writes _ hidle => exact nomatch hidle.symm.trans hbusy

/-- A completion ends the command, or stops at an unwritten byte of its message. -/
theorem complete_ends (s : State) :
    (∃ t, complete s = .next t ∧ t.busy = false) ∨
      ∃ a, a < s.len.toNat ∧ s.byteAt a = none ∧ complete s = .fault (.unwrittenByte a) := by
  rcases complete_cases s with ⟨i, -, hexec⟩ | hillegal
  · rw [hexec]
    rcases exec_cases i s with ⟨-, -, h⟩ | ⟨-, r, a, -, -, h⟩ | ⟨-, -, a, hlt, hunwritten, h⟩
    · exact .inl ⟨_, h, State.raiseFault_busy _ _⟩
    · exact .inl ⟨_, h, State.retire_busy _⟩
    · exact .inr ⟨a, hlt, hunwritten, h⟩
  · exact .inl ⟨_, hillegal, State.raiseFault_busy _ _⟩

theorem run_one (s : State) : Sys2Proof.core.run 1 s = step s := by
  have hcore : Sys2Proof.core.step s = step s := rfl
  simp only [Host.Core.run, hcore]
  cases step s <;> rfl

/-- One step ends the command if the engine is next. -/
theorem run_one_ends (hbusy : s.busy = true) (hnext : engineIsNext s.inputs = true) :
    (∃ t, Sys2Proof.core.run 1 s = .next t ∧ t.busy = false) ∨
      ∃ a, a < s.len.toNat ∧ s.byteAt a = none ∧ Sys2Proof.core.run 1 s = .fault (.unwrittenByte a) := by
  rw [run_one, step_engineIsNext hbusy hnext]
  have hends := complete_ends s.takeTurn
  simp only [State.takeTurn_len, State.byteAt, State.takeTurn_msg] at hends
  exact hends

/-- The polls of `STATUS` that come before anything else only put the end off, one step each. -/
theorem run_ends (xs : List Input) : ∀ s : State, s.inputs = xs → s.busy = true → ∃ k, k ≤ xs.length + 1 ∧
    ((∃ t, Sys2Proof.core.run k s = .next t ∧ t.busy = false) ∨
      ∃ a, a < s.len.toNat ∧ s.byteAt a = none ∧ Sys2Proof.core.run k s = .fault (.unwrittenByte a)) := by
  induction xs with
  | nil => exact fun s hinputs hbusy => ⟨1, by simp, run_one_ends hbusy (by rw [hinputs]; rfl)⟩
  | cons x rest ih =>
    intro s hinputs hbusy
    cases x with
    | engine => exact ⟨1, by simp, run_one_ends hbusy (by rw [hinputs]; rfl)⟩
    | reset => exact ⟨1, by simp, .inl ⟨_, (run_one s).trans (step_reset hinputs), State.applyReset_busy _⟩⟩
    | host a =>
      by_cases hpoll : isStatusRead a = true
      case neg => exact ⟨1, by simp, run_one_ends hbusy (by simp [hinputs, engineIsNext, hpoll])⟩
      case pos =>
        have haccepts : s.accepts a = true := by simp [State.accepts, hpoll]
        have hread : step s = .next ((s.withInputs rest).hostRead .word .status) := by
          rw [step_accepted hinputs haccepts, accepts_busy hbusy haccepts]
          rfl
        obtain ⟨k, hk, hend⟩ := ih ((s.withInputs rest).hostRead .word .status) rfl hbusy
        exact ⟨k + 1, by simpa using hk, by simpa [State.byteAt, run_next hread] using hend⟩

/-- Settles O11: by induction on the timeline, whose only entries that put the end off are polls of `STATUS`. -/
theorem everyCommandEnds : Obligations.EveryCommandEnds :=
  fun s hbusy => run_ends s.inputs s rfl hbusy

end Sys2Proof.Machine

/-! Who writes `RESULT`, `AD` and the fault flags (10_state.md R13, R14, R19): of the five ways of stepping only the
completion and the reset do. -/

namespace Sys2Proof.Machine

theorem writesResult_iff_mem {i : Instr} : writesResult i = true ↔ i ∈ [Instr.hash32, .hash64, .hash64s, .adFin] := by
  cases i <;> decide

theorem writesAdapter_iff_mem {i : Instr} : writesAdapter i = true ↔ i ∈ [Instr.adNew, .adSeed, .adFeed] := by
  cases i <;> decide

/-- Settles O33: a completion that changes `RESULT` is one of a command that writes it. -/
theorem resultIsWrittenOnlyByItsFourCommands : Obligations.ResultIsWrittenOnlyByItsFourCommands := by
  intro s t hstep hchanged
  cases stepsTo_of_step hstep with
  | completes hbusy _ h =>
    obtain ⟨-, -, -, -, -, -, hdone⟩ := complete_frame h
    refine .inr ⟨hbusy, hdone, ?_⟩
    rcases complete_next_cases h with ⟨c, rfl⟩ | ⟨i, r, a, hdecode, hresult, -, rfl⟩
    · simp at hchanged
    · refine ⟨i, by simpa using hdecode, writesResult_iff_mem.mp ?_⟩
      by_contra hnot
      simp [hresult (Bool.eq_false_iff.mpr hnot)] at hchanged
  | idles => simp at hchanged
  | resets hinputs => exact .inl (congrArg List.head? hinputs)
  | reads => simp at hchanged
  | writes => simp at hchanged

/-- Settles O34: a completion that changes `AD` is one of a command that writes it. -/
theorem adapterIsWrittenOnlyByItsCommands : Obligations.AdapterIsWrittenOnlyByItsCommands := by
  intro s t hstep hchanged
  cases stepsTo_of_step hstep with
  | completes hbusy _ h =>
    obtain ⟨-, -, -, -, -, -, hdone⟩ := complete_frame h
    refine .inr ⟨hbusy, hdone, ?_⟩
    rcases complete_next_cases h with ⟨c, rfl⟩ | ⟨i, r, a, hdecode, -, had, rfl⟩
    · simp at hchanged
    · refine ⟨i, by simpa using hdecode, writesAdapter_iff_mem.mp ?_⟩
      by_contra hnot
      simp [had (Bool.eq_false_iff.mpr hnot)] at hchanged
  | idles => simp at hchanged
  | resets hinputs => exact .inl (congrArg List.head? hinputs)
  | reads => simp at hchanged
  | writes => simp at hchanged

/-- In the fault state a host write sets no `BUSY`: a write to `CMD` is dropped (R55, R127). -/
theorem State.hostWrite_busy_of_fault {s : State} (hfault : s.fault = true) (hidle : s.busy = false) (w : Width)
    (d : U32) (g : Target) : (s.hostWrite w d g).busy = false := by
  by_contra hset
  obtain ⟨-, hnoFault⟩ := State.eq_cmd_of_hostWrite_busy hidle (Bool.not_eq_false _ ▸ hset)
  exact nomatch hnoFault.symm.trans hfault

/-- Settles O31: by the invariant no command runs in the fault state, so a step that is no reset is an idle turn or a
host access, and those leave the flags. -/
theorem faultStateIsLeftOnlyByReset : Obligations.FaultStateIsLeftOnlyByReset := by
  intro s t hinv hfault hstep hnoReset
  obtain ⟨-, -, -, -, hrun⟩ := hinv
  have hidle : s.busy = false := hrun hfault
  cases stepsTo_of_step hstep with
  | completes hbusy => exact nomatch hidle.symm.trans hbusy
  | idles => simp [hfault, hidle]
  | resets hinputs => exact absurd (congrArg List.head? hinputs) hnoReset
  | reads => simp [hfault, hidle]
  | @writes _ w d g rest =>
    have hbusy := State.hostWrite_busy_of_fault (s := s.withInputs rest) hfault hidle w d g
    simp [hfault, hbusy]

end Sys2Proof.Machine

/-! What a command can end in (30_encoding.md R56, 60_exceptions.md R120 to R126), over every length and content. -/

namespace Sys2Proof.Machine

section ends

variable {i : Instr} {s t : State}

theorem readsMessage_iff_mem : readsMessage i = true ↔ i ∈ [Instr.hash32, .hash64, .hash64s, .adFeed] := by
  cases i <;> decide

/-- Settles O27: LENGTH_RANGE is the only fault a command takes, and an unwritten byte the only thing it stops at. -/
theorem noCommandRaisesBounds : Obligations.NoCommandRaisesBounds := by
  intro i s
  constructor
  · intro t h
    rcases exec_next_cases h with ⟨hlong, rfl⟩ | ⟨r, a, -, -, rfl⟩
    · exact .inr ⟨hlong, rfl, rfl⟩
    · exact .inl ⟨rfl, rfl⟩
  · intro o w
    rcases exec_cases i s with ⟨-, -, h⟩ | ⟨-, r, a, -, -, h⟩ | ⟨-, -, a, -, -, h⟩ <;> simp [h]

/-- Settles O29: with `LEN` in range and every byte below it written, completion is all that is left of
`exec_cases`. -/
theorem messageCommandsCompleteOverAWrittenMessage : Obligations.MessageCommandsCompleteOverAWrittenMessage := by
  intro i s b _ ⟨hlen, hwritten⟩
  rcases exec_cases i s with ⟨-, hlong, -⟩ | ⟨-, r, a, -, -, h⟩ | ⟨-, -, a, hlt, hunwritten, -⟩
  · exact absurd hlen (Nat.not_le.mpr hlong)
  · exact ⟨_, h, rfl, rfl, rfl⟩
  · exact absurd ((hwritten a hlt).symm.trans hunwritten) (Option.some_ne_none _)

theorem execHash32_eq (s : State) :
    exec .hash32 s = messageCommand digest32 (fun d s => s.setResult (d.setWidth 64)) s := rfl

theorem execHash64_eq (s : State) : exec .hash64 s = messageCommand digest64 (fun d s => s.setResult d) s := rfl

theorem execHash64s_eq (s : State) :
    exec .hash64s s = messageCommand (hash64Seeded s.seed) (fun d s => s.setResult d) s := rfl

theorem execAdFeed_eq (s : State) :
    exec .adFeed s = messageCommand (feedDigest s.ad) (fun d s => s.setAd (some d)) s := rfl

/-- A message-reading command with `LEN` in range that answers a next state has computed its value. -/
theorem ok_of_messageCommand {α : Type} {compute : View → Except Halt α} {commit : α → State → State}
    (hq : s.view.OnlyUnwritten (compute s.view)) (hlen : s.len.toNat ≤ s.params.bufBytes)
    (h : messageCommand compute commit s = .next t) : ∃ x, compute s.view = .ok x ∧ t = (commit x s).retire := by
  rcases messageCommand_cases (commit := commit) hq with ⟨hlong, -⟩ | ⟨-, x, hx, h'⟩ | ⟨-, a, -, -, -, h'⟩
  · exact absurd hlen (Nat.not_le.mpr hlong)
  · rw [h'] at h
    cases h
    exact ⟨x, hx, rfl⟩
  · rw [h'] at h; cases h

/-- With `LEN` in range a command that reads the message answers a next state only over a written message. -/
theorem written_of_exec (hreads : readsMessage i = true) (hlen : s.len.toNat ≤ s.params.bufBytes)
    (h : exec i s = .next t) : s.view.Written 0 s.view.n := by
  cases i with
  | hash32 =>
    obtain ⟨x, hx, -⟩ := ok_of_messageCommand (digest32_onlyUnwritten _) hlen (execHash32_eq s ▸ h)
    exact written_of_digest32 hx
  | hash64 =>
    obtain ⟨x, hx, -⟩ := ok_of_messageCommand (digest64_onlyUnwritten _) hlen (execHash64_eq s ▸ h)
    exact written_of_digest64 hx
  | hash64s =>
    obtain ⟨x, hx, -⟩ := ok_of_messageCommand (hash64Seeded_onlyUnwritten _ _) hlen (execHash64s_eq s ▸ h)
    exact written_of_hash64Seeded hx
  | adFeed =>
    obtain ⟨x, hx, -⟩ := ok_of_messageCommand (feedDigest_onlyUnwritten _ _) hlen (execAdFeed_eq s ▸ h)
    exact written_of_feedDigest hx
  | adNew | adSeed | adFin => exact nomatch hreads

/-- Settles O30: the stops are those of `exec_cases`; and a command whose message has an unwritten byte does not
complete, since every bucket reads its whole message. -/
theorem commandsStopExactlyAtUnwrittenBytes : Obligations.CommandsStopExactlyAtUnwrittenBytes := by
  intro i s
  rw [← readsMessage_iff_mem]
  rcases exec_cases i s with ⟨-, hlong, h⟩ | ⟨-, r, a, -, -, h⟩ | ⟨hreads, hlen, a, hlt, hunwritten, h⟩
  · refine ⟨⟨by simp [h], fun ⟨_, hlen, _⟩ => absurd hlen (Nat.not_le.mpr hlong)⟩, by simp [h], by simp [h]⟩
  · refine ⟨⟨by simp [h], fun ⟨hreads, hlen, a, hlt, hunwritten⟩ => ?_⟩, by simp [h], by simp [h]⟩
    exact absurd hunwritten (written_of_exec hreads hlen h a (Nat.zero_le a) (by simpa [State.view_n] using hlt))
  · refine ⟨⟨fun _ => ⟨hreads, hlen, a, hlt, hunwritten⟩, fun _ => ⟨_, h⟩⟩, fun r hr => ⟨a, ?_, hlt, hunwritten⟩,
      by simp [h]⟩
    rw [h] at hr
    cases hr
    rfl

theorem writesResult_eq_false_of_mem : ∀ i ∈ [Instr.adNew, .adSeed, .adFeed], writesResult i = false := by
  decide

theorem writesAdapter_eq_false_of_mem : ∀ i ∈ [Instr.hash32, .hash64, .hash64s, .adFin], writesAdapter i = false := by
  decide

theorem exec_result_eq (hi : writesResult i = false) (h : exec i s = .next t) : t.result = s.result := by
  rcases exec_next_cases h with ⟨-, rfl⟩ | ⟨r, a, hr, -, rfl⟩
  · exact State.raiseFault_result _ _
  · exact hr hi

theorem exec_ad_eq (hi : writesAdapter i = false) (h : exec i s = .next t) : t.ad = s.ad := by
  rcases exec_next_cases h with ⟨-, rfl⟩ | ⟨r, a, -, ha, rfl⟩
  · exact State.raiseFault_ad _ _
  · exact ha hi

/-- Settles O32: the frame of `exec_next_frame`; `RESULT`, `AD` and the flags by which family the command is of. -/
theorem commandFrame : Obligations.CommandFrame := by
  intro i s t h
  obtain ⟨hparams, hmsg, hlen, hseed, hinputs, houtputs, hbusy⟩ := exec_next_frame h
  refine ⟨hparams, hmsg, fun a => by rw [State.byteAt, hmsg], hlen, hseed, hinputs, houtputs, hbusy, fun hi => ?_,
    fun hi => ?_, fun hi => ?_⟩
  · exact exec_result_eq (writesResult_eq_false_of_mem i hi) h
  · exact exec_ad_eq (writesAdapter_eq_false_of_mem i hi) h
  · obtain ⟨-, hfault, hfcode, -⟩ := exec_completed_of_readsMessage_eq_false h (readsMessage_eq_false_of_mem i hi)
    exact ⟨hfault, hfcode⟩

end ends

end Sys2Proof.Machine

/-! What a command does not see (20_memory.md R35, R43): the access discipline, the timeline and what the host has read
already; and of the buffer, everything at or beyond `LEN`. -/

namespace Sys2Proof.Machine

/-- `f` on the next state of an outcome; a stop stays the stop it is. -/
def mapNext (f : State → State) : Host.Outcome State Fault Refusal → Host.Outcome State Fault Refusal
  | .next s => .next (f s)
  | .fault r => .fault r
  | .refused r => .refused r

/-- The block with another access discipline, timeline and host side: all that no command looks at. -/
def State.around (checked : Bool) (inputs : List Input) (outputs : List U32) (s : State) : State :=
  { s with params := { s.params with checked := checked }, inputs := inputs, outputs := outputs }

section around

variable {c : Bool} {xs : List Input} {ys : List U32}

theorem State.sameMessage_around (s : State) : (s.around c xs ys).view.SameMessage s.view := ⟨rfl, fun _ _ => rfl⟩

@[simp] theorem State.around_bufBytes (s : State) : (s.around c xs ys).params.bufBytes = s.params.bufBytes := rfl

@[simp] theorem State.around_len (s : State) : (s.around c xs ys).len = s.len := rfl

theorem messageCommand_around {α : Type} {compute : View → Except Halt α} {commit : α → State → State} {s : State}
    (hcompute : compute (s.around c xs ys).view = compute s.view)
    (hcommit : ∀ x, commit x (s.around c xs ys) = (commit x s).around c xs ys) :
    messageCommand compute commit (s.around c xs ys) =
      mapNext (State.around c xs ys) (messageCommand compute commit s) := by
  unfold messageCommand
  rw [hcompute, State.around_bufBytes, State.around_len]
  split
  case isTrue => rfl
  case isFalse =>
    cases compute s.view with
    | ok x => simp only [hcommit]; rfl
    | error h => cases h <;> rfl

/-- A command does the same whatever is around it. -/
theorem exec_around (i : Instr) (s : State) :
    exec i (s.around c xs ys) = mapNext (State.around c xs ys) (exec i s) := by
  have hmessage : (s.around c xs ys).view.SameMessage s.view := s.sameMessage_around
  cases i with
  | hash32 =>
    rw [execHash32_eq, execHash32_eq]
    exact messageCommand_around (digest32_congr hmessage) fun _ => rfl
  | hash64 =>
    rw [execHash64_eq, execHash64_eq]
    exact messageCommand_around (digest64_congr hmessage) fun _ => rfl
  | hash64s =>
    rw [execHash64s_eq, execHash64s_eq]
    exact messageCommand_around (hash64Seeded_congr hmessage s.seed) fun _ => rfl
  | adFeed =>
    rw [execAdFeed_eq, execAdFeed_eq]
    exact messageCommand_around (feedDigest_congr hmessage s.ad) fun _ => rfl
  | adNew | adSeed | adFin => rfl

end around

/-- Settles O28: with the timeline and the host side as they are, the discipline is one of the things around a
command. -/
theorem theTwoDisciplinesAgree : Obligations.TheTwoDisciplinesAgree := by
  intro i s c
  have hcommutes := exec_around (c := c) (xs := s.inputs) (ys := s.outputs) i s
  refine ⟨fun t h => ?_, fun r h => ?_⟩
  · obtain ⟨-, -, -, -, hinputs, houtputs, -⟩ := exec_next_frame h
    have hsame : t.around c s.inputs s.outputs = { t with params := { t.params with checked := c } } := by
      rw [← hinputs, ← houtputs]; rfl
    rw [h, mapNext, hsame] at hcommutes
    exact hcommutes
  · rw [h] at hcommutes
    exact hcommutes

section sameMessage

variable {s t : State}

theorem State.sameMessage_view (hlen : s.len = t.len) (hbytes : ∀ a, a < s.len.toNat → s.byteAt a = t.byteAt a) :
    s.view.SameMessage t.view :=
  ⟨congrArg BitVec.toNat hlen, hbytes⟩

/-- Two blocks that get one value from a computation commit that value. -/
theorem exists_messageCommand_next {α : Type} {compute compute' : View → Except Halt α} {commit : α → State → State}
    (hq : s.view.OnlyUnwritten (compute s.view)) (hs : s.len.toNat ≤ s.params.bufBytes)
    (ht : t.len.toNat ≤ t.params.bufBytes) (hcompute : compute s.view = compute' t.view) {s' : State}
    (h : messageCommand compute commit s = .next s') :
    ∃ x, s' = (commit x s).retire ∧ messageCommand compute' commit t = .next (commit x t).retire := by
  obtain ⟨x, hx, rfl⟩ := ok_of_messageCommand hq hs h
  exact ⟨x, rfl, messageCommand_ok ht (hcompute ▸ hx)⟩

end sameMessage

/-- Settles O35: the two views hold one message, so every digest over them is one. -/
theorem digestDependsOnTheMessageAlone : Obligations.DigestDependsOnTheMessageAlone := by
  intro s t hlen hs ht hbytes
  have hmessage : s.view.SameMessage t.view := State.sameMessage_view hlen hbytes
  constructor
  · intro i hi s' h
    cases i with
    | hash32 =>
      rw [execHash32_eq] at h ⊢
      obtain ⟨x, rfl, hx⟩ := exists_messageCommand_next (digest32_onlyUnwritten _) hs ht (digest32_congr hmessage) h
      exact ⟨_, hx, rfl⟩
    | hash64 =>
      rw [execHash64_eq] at h ⊢
      obtain ⟨x, rfl, hx⟩ := exists_messageCommand_next (digest64_onlyUnwritten _) hs ht (digest64_congr hmessage) h
      exact ⟨_, hx, rfl⟩
    | hash64s =>
      have hseed : s.seed = t.seed := by simpa using hi
      have hdigest : hash64Seeded s.seed s.view = hash64Seeded t.seed t.view := by
        rw [hseed, hash64Seeded_congr hmessage]
      rw [execHash64s_eq] at h ⊢
      obtain ⟨x, rfl, hx⟩ := exists_messageCommand_next (hash64Seeded_onlyUnwritten _ _) hs ht hdigest h
      exact ⟨_, hx, rfl⟩
    | adNew | adSeed | adFeed | adFin => simp at hi
  · intro had s' h
    have hdigest : feedDigest s.ad s.view = feedDigest t.ad t.view := by rw [had, feedDigest_congr hmessage]
    rw [execAdFeed_eq] at h ⊢
    obtain ⟨x, rfl, hx⟩ := exists_messageCommand_next (feedDigest_onlyUnwritten _ _) hs ht hdigest h
    exact ⟨_, hx, rfl⟩

end Sys2Proof.Machine

/-! The bytes of a word (20_memory.md R33, 40_primitives.md R66): byte `k` of the little-endian word is the byte at
offset `k`, and a word is determined by its bytes. -/

namespace Sys2Proof.Machine

/-- The `n + 1` bytes from `o` on, little-endian, for every number of bytes. -/
def littleEndian (b : Nat → U8) : (n o : Nat) → BitVec (8 * n + 8)
  | 0, o => b o
  | n + 1, o => littleEndian b n (o + 1) ++ b o

theorem word32_eq_littleEndian (b : Nat → U8) (o : Nat) : word32 b o = littleEndian b 3 o := rfl

theorem word64_eq_littleEndian (b : Nat → U8) (o : Nat) : word64 b o = littleEndian b 7 o := rfl

theorem extractLsb'_littleEndian (b : Nat → U8) (n : Nat) : ∀ o k, k ≤ n →
    (littleEndian b n o).extractLsb' (8 * k) 8 = b (o + k) := by
  induction n with
  | zero =>
    intro o k hk
    obtain rfl : k = 0 := Nat.le_zero.mp hk
    exact BitVec.extractLsb'_eq_self
  | succ n ih =>
    intro o k hk
    cases k with
    | zero => exact BitVec.extractLsb'_append_eq_right
    | succ k =>
      have hhigh : (littleEndian b (n + 1) o).extractLsb' (8 * (k + 1)) 8 =
          (littleEndian b n (o + 1)).extractLsb' (8 * (k + 1) - 8) 8 :=
        BitVec.extractLsb'_append_eq_of_le (by omega)
      rw [hhigh, show 8 * (k + 1) - 8 = 8 * k by omega, ih (o + 1) k (by omega), Nat.add_right_comm, Nat.add_assoc]

theorem extractLsb'_word32 (b : Nat → U8) (o : Nat) {k : Nat} (hk : k < 4) :
    (word32 b o).extractLsb' (8 * k) 8 = b (o + k) :=
  (congrArg (BitVec.extractLsb' (8 * k) 8) (word32_eq_littleEndian b o)).trans
    (extractLsb'_littleEndian b 3 o k (by omega))

theorem extractLsb'_word64 (b : Nat → U8) (o : Nat) {k : Nat} (hk : k < 8) :
    (word64 b o).extractLsb' (8 * k) 8 = b (o + k) :=
  (congrArg (BitVec.extractLsb' (8 * k) 8) (word64_eq_littleEndian b o)).trans
    (extractLsb'_littleEndian b 7 o k (by omega))

theorem eq_of_bytes_eq {n : Nat} {x y : BitVec (8 * n)}
    (h : ∀ k, k < n → x.extractLsb' (8 * k) 8 = y.extractLsb' (8 * k) 8) : x = y := by
  refine BitVec.eq_of_getLsbD_eq fun i hi => ?_
  have hbyte := congrArg (·.getLsbD (i % 8)) (h (i / 8) (by omega))
  simpa [BitVec.getLsbD_extractLsb', Nat.mod_lt, Nat.div_add_mod] using hbyte

theorem bswap32_eq_word32 (v : U32) : bswap32 v = word32 (fun k => v.extractLsb' (8 * (3 - k)) 8) 0 := rfl

theorem bswap64_eq_word64 (v : U64) : bswap64 v = word64 (fun k => v.extractLsb' (8 * (7 - k)) 8) 0 := rfl

theorem extractLsb'_bswap32 (v : U32) {k : Nat} (hk : k < 4) :
    (bswap32 v).extractLsb' (8 * k) 8 = v.extractLsb' (8 * (3 - k)) 8 := by
  rw [bswap32_eq_word32, extractLsb'_word32 _ _ hk, Nat.zero_add]

theorem extractLsb'_bswap64 (v : U64) {k : Nat} (hk : k < 8) :
    (bswap64 v).extractLsb' (8 * k) 8 = v.extractLsb' (8 * (7 - k)) 8 := by
  rw [bswap64_eq_word64, extractLsb'_word64 _ _ hk, Nat.zero_add]

/-- Settles O53: a byte swap is the little-endian word of the bytes in reverse; reversing twice gives every byte
back. -/
theorem byteSwapReversesBytes : Obligations.ByteSwapReversesBytes := by
  refine ⟨fun v k => extractLsb'_bswap32 v, fun v k => extractLsb'_bswap64 v, fun v => ?_, fun v => ?_⟩
  · refine eq_of_bytes_eq (n := 4) fun k hk => ?_
    rw [extractLsb'_bswap32 _ hk, extractLsb'_bswap32 _ (by omega), show 3 - (3 - k) = k by omega]
  · refine eq_of_bytes_eq (n := 8) fun k hk => ?_
    rw [extractLsb'_bswap64 _ hk, extractLsb'_bswap64 _ (by omega), show 7 - (7 - k) = k by omega]

/-- Past the length the discipline decides what the bounds check says (R32, R43). -/
theorem View.bound_error {v : View} {o w : Nat} (h : v.n < o + w) :
    v.bound o w = .error (if v.checked then Halt.raised .bounds else Halt.stuck (.uncheckedRead o w)) := by
  cases hc : v.checked with
  | true => exact View.bound_raises h hc
  | false => exact View.bound_stuck h hc

/-- Settles O44: in bounds the reads return the little-endian word of the bytes; past the length the bounds check comes
first and decides alone. -/
theorem byteViewReads : Obligations.ByteViewReads := by
  intro v o
  refine ⟨fun b hv => ⟨fun h => View.byte_ok hv h, fun h => ?_, fun h => ?_⟩, fun h => ?_, fun h => ?_, fun h => ?_⟩
  · exact ⟨_, View.fetch32_ok hv h, fun k => extractLsb'_word32 b o⟩
  · exact ⟨_, View.fetch64_ok hv h, fun k => extractLsb'_word64 b o⟩
  · rw [View.byte, View.bound_error h]; rfl
  · rw [View.fetch32, View.bound_error h]; rfl
  · rw [View.fetch64, View.bound_error h]; rfl

end Sys2Proof.Machine

/-! Host accesses to the registers and the message window (10_state.md R27, 20_memory.md R31 to R37). -/

namespace Sys2Proof.Machine

variable {s : State}

section reads

/-- A read that uses no free value changes nothing but the timeline and what the host has read (R35). -/
theorem step_read_of_draws_eq_zero {off : Nat} {w : Width} {g : Target} (hidle : s.busy = false)
    (hg : target s.params.bufBytes off w = .ok g) (hdraws : g.draws = 0) (rest : List Input) :
    step (s.withInputs (.host (.read off w) :: rest)) =
      .next { s with inputs := rest, outputs := s.readData w g :: s.outputs } := by
  rw [step_read hidle hg, State.hostRead, hdraws]
  cases g <;> rfl

/-- Settles O37: each register is a target whose read uses no free value. -/
theorem registerReads : Obligations.RegisterReads := by
  intro s rest hidle
  have reads {off : Nat} {g : Target} := step_read_of_draws_eq_zero (off := off) (w := .word) (g := g) hidle
  refine ⟨reads (target_cmd _) rfl rest, reads (target_status _) rfl rest, reads (target_len _) rfl rest,
    reads (target_0x0C _) rfl rest, reads (target_seedLo _) rfl rest, reads (target_seedHi _) rfl rest,
    reads (target_resultLo _) rfl rest, reads (target_resultHi _) rfl rest, fun off hlow hhigh _ => ?_⟩
  exact reads (target_reserved hlow hhigh) rfl rest

/-- The read of `STATUS` is accepted whether a command runs or not (R146). -/
theorem step_read_status (s : State) (rest : List Input) :
    step (s.withInputs (.host (.read 0x0004 .word) :: rest)) =
      .next { s with inputs := rest, outputs := s.status :: s.outputs } := by
  rw [step_accepted rfl (by simp [State.accepts, isStatusRead]), hostAccess_read (target_status _)]
  rfl

/-- Settles O9: the law of the read of `STATUS`, which asks nothing of `BUSY`. -/
theorem statusReadIsAcceptedAtAnyTime : Obligations.StatusReadIsAcceptedAtAnyTime := step_read_status

theorem State.windowByte_of_byteAt {i k : Nat} {x : U8} (h : s.byteAt (i + k) = some x) : s.windowByte i k = x := by
  simp only [State.byteAt] at h
  simp [State.windowByte, h]

theorem State.windowData_word (s : State) (i : Nat) : s.windowData i .word = word32 (s.windowByte i) 0 := rfl

/-- Settles O41: the value read is made of the window's bytes, each the stored one where there is one. -/
theorem windowReads : Obligations.WindowReads := by
  intro s i rest hidle
  constructor
  · intro hi
    refine ⟨s.windowData i .byte, ⟨_, step_read hidle (target_windowByte hi)⟩, fun x hx => ?_⟩
    exact congrArg (BitVec.setWidth 32) (State.windowByte_of_byteAt (k := 0) hx)
  · intro h4 hi
    refine ⟨s.windowData i .word, ⟨_, step_read hidle (target_windowWord hi h4)⟩, fun k x hk hx => ?_⟩
    rw [State.windowData_word, extractLsb'_word32 _ _ hk, Nat.zero_add]
    exact State.windowByte_of_byteAt hx

end reads

section writes

/-- Settles O38: a half of `SEED` is written below or above the other half. -/
theorem registerWrites : Obligations.RegisterWrites := by
  intro s d rest hidle
  refine ⟨step_write hidle (target_len _), s.seed.extractLsb' 32 32 ++ d, d ++ s.seed.extractLsb' 0 32,
    step_write hidle (target_seedLo _), step_write hidle (target_seedHi _), ?_, ?_, ?_, ?_⟩
  · exact BitVec.extractLsb'_append_eq_right
  · exact BitVec.extractLsb'_append_eq_left
  · exact BitVec.extractLsb'_append_eq_left
  · exact BitVec.extractLsb'_append_eq_right

/-- Settles O39: a write to each of these targets is the identity. -/
theorem writesToReadOnlyAndReservedHaveNoEffect : Obligations.WritesToReadOnlyAndReservedHaveNoEffect := by
  intro s d rest off hidle hoff
  rcases hoff with hmem | ⟨hlow, hhigh, -⟩
  · simp only [List.mem_cons, List.not_mem_nil, or_false] at hmem
    rcases hmem with rfl | rfl | rfl | rfl
    · exact step_write hidle (target_status _)
    · exact step_write hidle (target_0x0C _)
    · exact step_write hidle (target_resultLo _)
    · exact step_write hidle (target_resultHi _)
  · exact step_write hidle (target_reserved (w := .word) hlow hhigh)

/-- The bytes a word write stores (R36), by their place in the word. -/
theorem Memory.read_writeWord_byte (m : Memory) (i : Nat) (d : U32) {k : Nat} (hk : k < 4) :
    Memory.read (m.writeWord i d) (i + k) = some (d.extractLsb' (8 * k) 8) := by
  rw [Memory.read_writeWord]
  interval_cases k <;> simp

theorem Memory.read_writeWord_other (m : Memory) (d : U32) {i a : Nat} (h : a < i ∨ i + 4 ≤ a) :
    Memory.read (m.writeWord i d) a = m.read a := by
  rw [Memory.read_writeWord, if_neg (by omega), if_neg (by omega), if_neg (by omega), if_neg (by omega)]

/-- Settles O40: the buffer after the step is `Memory.write` or `Memory.writeWord`, whose reads are known. -/
theorem windowWrites : Obligations.WindowWrites := by
  intro s d i rest hidle
  constructor
  · intro hi
    exact ⟨_, step_write hidle (target_windowByte hi), fun a => Memory.read_write _ _ _ _⟩
  · intro h4 hi
    exact ⟨_, step_write hidle (target_windowWord hi h4), fun k => Memory.read_writeWord_byte _ _ _,
      fun a => Memory.read_writeWord_other _ _⟩

end writes

/-! The accesses the port refuses are those without a meaning (R34, R36, U6, U7). -/

section refusals

theorem exists_registerTarget_iff {off : Nat} {w : Width} :
    (∃ g, registerTarget off w = .ok g) ↔ w = .word ∧ off % 4 = 0 := by
  unfold registerTarget
  split <;> simp_all

theorem exists_windowTarget_iff {n off : Nat} {w : Width} :
    (∃ g, windowTarget n off w = .ok g) ↔
      off - 0x1000 + w.bytes ≤ n ∧ (w = .byte ∨ (w = .word ∧ (off - 0x1000) % 4 = 0)) := by
  unfold windowTarget
  by_cases hout : n < off - 0x1000 + w.bytes
  case pos => simp [hout]
  case neg =>
    simp only [hout, if_false, Nat.not_lt.mp hout, true_and]
    split <;> simp_all

/-- The port accepts exactly the accesses that `Access.wellFormed` describes, region by region of the map (R31). -/
theorem exists_target_iff {n off : Nat} {w : Width} :
    (∃ g, target n off w = .ok g) ↔
      (Access.inRegisters off w || Access.inReserved off w || Access.inWindow n off w) = true := by
  have hpos : 0 < w.bytes := by cases w <;> decide
  unfold target
  by_cases hregisters : off < 0x20
  case pos =>
    have hreserved : ¬ 0x20 ≤ off := by omega
    have hwindow : ¬ 0x1000 ≤ off := by omega
    rw [if_pos hregisters, exists_registerTarget_iff]
    simp [Access.inRegisters, Access.inReserved, Access.inWindow, hregisters, hreserved, hwindow, and_comm]
  case neg =>
    rw [if_neg hregisters]
    by_cases hreserved : off < 0x1000
    case pos =>
      have hlow : 0x20 ≤ off := by omega
      have hwindow : ¬ 0x1000 ≤ off := by omega
      rw [if_pos hreserved]
      by_cases hfits : off + w.bytes ≤ 0x1000 <;>
        simp [Access.inRegisters, Access.inReserved, Access.inWindow, hregisters, hlow, hwindow, hfits]
    case neg =>
      have hwindow : 0x1000 ≤ off := by omega
      have hpast : ¬ off + w.bytes ≤ 0x1000 := by omega
      have hfits : off - 0x1000 + w.bytes ≤ n ↔ off + w.bytes ≤ 0x1000 + n := by omega
      rw [if_neg hreserved, exists_windowTarget_iff, hfits]
      simp [Access.inRegisters, Access.inReserved, Access.inWindow, hregisters, hwindow, hpast]

/-- An access is refused exactly if it has no target, and the target does not depend on whether it reads or writes. -/
theorem hostAccess_refused_iff {a : Access} :
    (∃ r, hostAccess a s = .refused r) ↔ a.wellFormed s.params = false := by
  rw [← Bool.not_eq_true, Access.wellFormed, ← exists_target_iff]
  rcases hostAccess_cases a s with ⟨g, hg, ⟨off, w, -, h⟩ | ⟨off, w, d, -, h⟩⟩ | ⟨r, hr, h⟩
  · simp [h, hg]
  · simp [h, hg]
  · simp [h, hr]

theorem complete_not_refused (s : State) (r : Refusal) : complete s ≠ .refused r := by
  rcases complete_ends s with ⟨t, h, -⟩ | ⟨a, -, -, h⟩ <;> simp [h]

/-- Settles O42: of the five ways of stepping only a host access can be refused, and on a busy block only the read of
`STATUS` is accepted, which is well formed. -/
theorem refusedAccessesAreTheOnesLeftOut : Obligations.RefusedAccessesAreTheOnesLeftOut := by
  intro s
  constructor
  · rintro ⟨r, hr⟩
    rcases step_cases s with ⟨-, -, h⟩ | ⟨-, h⟩ | ⟨rest, -, h⟩ | ⟨a, rest, hinputs, haccepts, h⟩ <;> rw [h] at hr
    · exact absurd hr (complete_not_refused _ r)
    · cases hr
    · cases hr
    · have hill : a.wellFormed s.params = false := hostAccess_refused_iff (s := s.withInputs rest) |>.mp ⟨r, hr⟩
      refine ⟨Bool.eq_false_iff.mpr fun hbusy => ?_, a, rest, hinputs, hill⟩
      rw [accepts_busy hbusy haccepts] at hill
      cases hill
  · rintro ⟨hidle, a, rest, hinputs, hill⟩
    rw [step_accepted hinputs (accepts_idle hidle a)]
    exact hostAccess_refused_iff.mpr hill

end refusals

end Sys2Proof.Machine

/-! The host macros (30_encoding.md R58) and the reads of `GET`, run entry by entry. -/

namespace Sys2Proof.Machine

section shortMacros

theorem run_two {s t u : State} (h : step s = .next t) (h' : step t = .next u) :
    Sys2Proof.core.run 2 s = .next u :=
  (run_next h 1).trans ((run_one t).trans h')

theorem step_read_resultLo {s : State} (hidle : s.busy = false) (rest : List Input) :
    step (s.withInputs (.host (.read 0x0018 .word) :: rest)) =
      .next { s with inputs := rest, outputs := s.result.extractLsb' 0 32 :: s.outputs } :=
  step_read_of_draws_eq_zero hidle (target_resultLo _) rfl rest

theorem step_read_resultHi {s : State} (hidle : s.busy = false) (rest : List Input) :
    step (s.withInputs (.host (.read 0x001C .word) :: rest)) =
      .next { s with inputs := rest, outputs := s.result.extractLsb' 32 32 :: s.outputs } :=
  step_read_of_draws_eq_zero hidle (target_resultHi _) rfl rest

/-- The two halves of a 64-bit register make up the register (R12, R13). -/
theorem high_append_low (v : U64) : v.extractLsb' 32 32 ++ v.extractLsb' 0 32 = v :=
  (BitVec.extractLsb'_append_extractLsb'_eq_extractLsb' (start₁ := 0) (len₁ := 32) (len₂ := 32) rfl).trans
    BitVec.extractLsb'_eq_self

/-- Settles O43: the second read sees the `RESULT` the first one saw. -/
theorem resultHalvesAreOfOneDigest : Obligations.ResultHalvesAreOfOneDigest := by
  intro s rest hidle
  refine ⟨s.result.extractLsb' 0 32, s.result.extractLsb' 32 32, high_append_low _, ?_, ?_⟩
  · exact run_two (step_read_resultLo hidle _)
      (step_read_resultHi (s := { s with outputs := s.result.extractLsb' 0 32 :: s.outputs }) hidle rest)
  · exact run_two (step_read_resultHi hidle _)
      (step_read_resultLo (s := { s with outputs := s.result.extractLsb' 32 32 :: s.outputs }) hidle rest)

/-- Writing the low half and then the high half leaves nothing of the old `SEED` (R148). -/
theorem State.hostWrite_seedLo_seedHi (s : State) (v : U64) :
    (s.hostWrite .word (v.extractLsb' 0 32) .seedLo).hostWrite .word (v.extractLsb' 32 32) .seedHi =
      { s with seed := v } := by
  have hlow : (s.seed.extractLsb' 32 32 ++ v.extractLsb' 0 32).extractLsb' 0 32 = v.extractLsb' 0 32 :=
    BitVec.extractLsb'_append_eq_right
  simp only [State.hostWrite, hlow, high_append_low]

/-- Settles O46: the two writes together leave `SEED` the value. -/
theorem setSeedMacroSetsTheSeed : Obligations.SetSeedMacroSetsTheSeed := by
  intro s v rest hidle
  have hlo := step_write (d := v.extractLsb' 0 32) (rest := .host (.write 0x0014 .word (v.extractLsb' 32 32)) :: rest)
    hidle (target_seedLo _)
  have hhi := step_write (s := s.hostWrite .word (v.extractLsb' 0 32) .seedLo) (d := v.extractLsb' 32 32)
    (rest := rest) hidle (target_seedHi _)
  refine (run_two hlo hhi).trans ?_
  exact congrArg Host.Outcome.next (State.hostWrite_seedLo_seedHi (s.withInputs rest) v)

end shortMacros

section load

/-- The buffer after `LOAD`'s byte writes, from offset `i` on. -/
def Memory.writeBytes : Memory → Nat → List U8 → Memory
  | m, _, [] => m
  | m, i, b :: bs => Memory.writeBytes (m.write i b) (i + 1) bs

theorem Memory.read_writeBytes (bytes : List U8) : ∀ (m : Memory) (i a : Nat),
    Memory.read (m.writeBytes i bytes) a = if i ≤ a ∧ a < i + bytes.length then bytes[a - i]? else m.read a := by
  induction bytes with
  | nil => intro m i a; simp [Memory.writeBytes]
  | cons b bs ih =>
    intro m i a
    rw [Memory.writeBytes, ih, Memory.read_write, List.length_cons]
    rcases Nat.lt_trichotomy a i with hlt | rfl | hgt
    · rw [if_neg (by omega), if_neg (by omega), if_neg (by omega)]
    · rw [if_neg (by omega), if_pos rfl, if_pos (by omega), Nat.sub_self, List.getElem?_cons_zero]
    · rw [if_neg (show ¬ a = i by omega), show a - i = a - (i + 1) + 1 by omega, List.getElem?_cons_succ]
      exact if_congr (by omega) rfl rfl

/-- The byte stored is the one the write's data was made from (R36, R58). -/
theorem extractLsb'_setWidth_byte (x : U8) : (x.setWidth 32 : U32).extractLsb' 0 8 = x :=
  (BitVec.extractLsb'_setWidth_of_le (by decide)).trans BitVec.extractLsb'_eq_self

theorem run_macroLoadBytes (k : Nat) (rest : List Input) (bytes : List U8) : ∀ (s : State) (i : Nat),
    s.busy = false → i + bytes.length ≤ s.params.bufBytes →
    Sys2Proof.core.run (bytes.length + k) (s.withInputs (macroLoadBytes i bytes ++ rest)) =
      Sys2Proof.core.run k { s with msg := s.msg.writeBytes i bytes, inputs := rest } := by
  induction bytes with
  | nil => intro s i _ _; rw [List.length_nil, Nat.zero_add]; rfl
  | cons b bs ih =>
    intro s i hidle hfits
    rw [List.length_cons] at hfits ⊢
    have hstep := step_write (d := b.setWidth 32) (rest := macroLoadBytes (i + 1) bs ++ rest) hidle
      (target_windowByte (show i < s.params.bufBytes by omega))
    rw [Nat.add_right_comm]
    refine (run_next hstep _).trans ?_
    refine (ih { s with msg := s.msg.write i ((b.setWidth 32 : U32).extractLsb' 0 8) } (i + 1) hidle (by
      show i + 1 + bs.length ≤ s.params.bufBytes
      omega)).trans ?_
    rw [extractLsb'_setWidth_byte]
    rfl

/-- Settles O45: the byte writes one after the other, then the write to `LEN`. -/
theorem loadMacroLoadsTheMessage : Obligations.LoadMacroLoadsTheMessage := by
  intro s bytes rest hidle hfits
  refine ⟨s.msg.writeBytes 0 bytes, ?_, fun a => ?_⟩
  · rw [macroLoad, List.append_assoc]
    refine (run_macroLoadBytes 1 _ bytes s 0 hidle (by omega)).trans ((run_one _).trans ?_)
    exact step_write (s := { s with msg := s.msg.writeBytes 0 bytes }) hidle (target_len _)
  · rw [Memory.read_writeBytes]
    by_cases ha : a < bytes.length <;> simp [ha]

end load

section perform

/-- `k` polls of `STATUS` in a row return the status word `k` times and change nothing else. -/
theorem run_polls (n : Nat) (xs : List Input) (k : Nat) : ∀ s : State,
    Sys2Proof.core.run (k + n) (s.withInputs (List.replicate k (.host (.read 0x0004 .word)) ++ xs)) =
      Sys2Proof.core.run n { s with inputs := xs, outputs := List.replicate k s.status ++ s.outputs } := by
  induction k with
  | zero => intro s; rw [Nat.zero_add]; rfl
  | succ k ih =>
    intro s
    rw [Nat.add_right_comm]
    refine (run_next (step_read_status s _) _).trans ?_
    refine (ih { s with outputs := s.status :: s.outputs }).trans ?_
    have houtputs : List.replicate (k + 1) s.status ++ s.outputs =
        List.replicate k s.status ++ s.status :: s.outputs := by
      rw [List.replicate_succ', List.append_assoc, List.singleton_append]
    rw [houtputs]
    rfl

/-- What a command answers it answers with any other timeline and host side. -/
theorem exec_next_around {s t : State} {i : Instr} (h : exec i s = .next t) (xs : List Input) (ys : List U32) :
    exec i { s with inputs := xs, outputs := ys } = .next { t with inputs := xs, outputs := ys } := by
  obtain ⟨hparams, -⟩ := exec_next_frame h
  have haround : t.around s.params.checked xs ys = { t with inputs := xs, outputs := ys } := by
    rw [← hparams]; rfl
  have hexec := exec_around (c := s.params.checked) (xs := xs) (ys := ys) i s
  rw [h, mapNext, haround] at hexec
  exact hexec

/-- The engine's turn on the word of a command performs it. -/
theorem step_engine_encode {s : State} {i : Instr} {rest : List Input} (hinputs : s.inputs = .engine :: rest)
    (hbusy : s.busy = true) (hpend : s.pend = encode i) : step s = exec i (s.withInputs rest) := by
  rw [step_engine hinputs, engineTurn_busy (by simpa using hbusy)]
  exact complete_ok (by rw [State.withInputs_pend, hpend, decodeWord_encode])

theorem State.issue_withInputs (s : State) (w : U32) (xs : List Input) :
    (s.withInputs xs).issue w = (s.issue w).withInputs xs := by
  unfold State.issue
  rw [State.withInputs_fault]
  split <;> rfl

/-- Settles O47: the issue, `k` polls of the busy block, the engine's turn, and the poll that sees the command's
status. -/
theorem doMacroPerformsTheCommand : Obligations.DoMacroPerformsTheCommand := by
  intro s t i k rest hidle hnoFault hexec
  have hissue := State.issue_of_fault_eq_false hnoFault (encode i)
  have hbusy : (s.issue (encode i)).busy = true := by rw [hissue]
  have hpend : (s.issue (encode i)).pend = encode i := by rw [hissue]
  rw [← hissue] at hexec
  refine ⟨List.replicate k (s.issue (encode i)).status, List.length_replicate, fun p hp => ?_, ?_⟩
  · rw [List.eq_of_mem_replicate hp, State.getLsbD_status]
    exact hbusy
  · have hissued := step_write_cmd hidle (encode i)
      (List.replicate k (.host (.read 0x0004 .word)) ++ (.engine :: .host (.read 0x0004 .word) :: rest))
    rw [State.issue_withInputs] at hissued
    have hturn := (step_engine_encode (s := { s.issue (encode i) with
        inputs := .engine :: .host (.read 0x0004 .word) :: rest
        outputs := List.replicate k (s.issue (encode i)).status ++ s.outputs }) rfl hbusy hpend).trans
      (exec_next_around hexec (.host (.read 0x0004 .word) :: rest) _)
    have hpoll := step_read_status
      { t with outputs := List.replicate k (s.issue (encode i)).status ++ s.outputs } rest
    rw [macroDo, List.cons_append, List.append_assoc]
    refine (run_next hissued (k + 2)).trans ((run_polls 2 _ k (s.issue (encode i))).trans ?_)
    rw [State.issue_outputs]
    exact run_two hturn hpoll

end perform

end Sys2Proof.Machine

/-! The primitives (40_primitives.md R60 to R75): an xor-shift is injective at every width and distance, and so is a
multiplication by a constant with an inverse, so their compositions are bijections. -/

namespace Sys2Proof.Machine

/-- The value a shift by `k > 0` leaves unchanged is 0, since a shift divides. -/
theorem eq_zero_of_eq_ushiftRight {w k : Nat} {x : BitVec w} (hk : 0 < k) (h : x = x >>> k) : x = 0#w := by
  refine BitVec.eq_of_toNat_eq ?_
  have hdiv : x.toNat = x.toNat / 2 ^ k := by
    rw [← Nat.shiftRight_eq_div_pow, ← BitVec.toNat_ushiftRight, ← h]
  by_contra hpos
  have hlt := Nat.div_lt_self (Nat.pos_of_ne_zero hpos) (Nat.one_lt_two_pow hk.ne')
  omega

theorem xorShift_bijective {w k : Nat} (hk : 0 < k) : Function.Bijective fun x : BitVec w => x ^^^ (x >>> k) := by
  refine Function.Injective.bijective_of_finite fun x y hxy => ?_
  have hfix : x ^^^ y = (x ^^^ y) >>> k := by
    rw [BitVec.ushiftRight_xor_distrib]
    refine BitVec.xor_eq_zero_iff.mp ?_
    calc (x ^^^ y) ^^^ (x >>> k ^^^ y >>> k)
      _ = (x ^^^ x >>> k) ^^^ (y ^^^ y >>> k) := by ac_rfl
      _ = 0#w := BitVec.xor_eq_zero_iff.mpr hxy
  exact BitVec.xor_eq_zero_iff.mp (eq_zero_of_eq_ushiftRight hk hfix)

theorem mul_bijective {w : Nat} {a b : BitVec w} (h : a * b = 1#w) : Function.Bijective fun x : BitVec w => x * a := by
  refine Function.Injective.bijective_of_finite fun x y hxy => ?_
  have hcancel (z : BitVec w) : z * a * b = z := by rw [BitVec.mul_assoc, h, BitVec.mul_one]
  rw [← hcancel x, ← hcancel y]
  exact congrArg (· * b) hxy

/-- Settles O54: the finalizer alternates xor-shifts and multiplications by odd constants, the shift-mix is one
xor-shift. -/
theorem finalizerAndShiftMixAreBijections : Obligations.FinalizerAndShiftMixAreBijections := by
  have hFM1 : FM1 * 0xa5cb9243#32 = 1#32 := by decide
  have hFM2 : FM2 * 0x7ed1b41d#32 = 1#32 := by decide
  refine ⟨?_, xorShift_bijective (by decide)⟩
  exact (xorShift_bijective (k := 16) (by decide)).comp <| (mul_bijective hFM2).comp <|
    (xorShift_bijective (k := 13) (by decide)).comp <| (mul_bijective hFM1).comp <|
    xorShift_bijective (k := 16) (by decide)

/-- The two halves of `mur` (R68) are `premix32` and `step32` (R69, R70). -/
theorem mur_eq_step32_premix32 (a h : U32) : mur a h = step32 (h ^^^ premix32 a) := rfl

theorem hashLen16WithMul_zero (mul : U64) : hashLen16WithMul 0#64 0#64 mul = 0#64 := by
  simp [hashLen16WithMul]

/-- Settles O55: the constants and the bodies are the definitions; the corner cases with a free operand are
`mur_eq_step32_premix32` and `hashLen16WithMul_zero`. -/
theorem primitiveIdentities : Obligations.PrimitiveIdentities :=
  ⟨⟨rfl, rfl, rfl, rfl, rfl, rfl, rfl, rfl, rfl⟩, fun _ => rfl, fun _ _ => rfl, fun _ => rfl, fun _ => rfl,
    fun _ _ _ => rfl, fun _ => rfl, fun _ _ _ => rfl, fun _ _ => rfl, fun _ _ _ _ _ _ => rfl,
    mur_eq_step32_premix32, rfl, rfl, rfl, rfl, hashLen16WithMul_zero, hashLen16WithMul_zero KMUL⟩

end Sys2Proof.Machine

/-! The 32-bit digests over a written message (41_hash32.md R80 to R88): one value per bucket, over any view that holds
the message. -/

namespace Sys2Proof.Machine

/-- The tail fold (R85) over the message's words. -/
def tailAt32 (b : Nat → U8) (n : Nat) (n32 : U32) : Regs32 :=
  tailFold32 n32 (word32 b (n - 4)) (word32 b (n - 8)) (word32 b (n - 16)) (word32 b (n - 12)) (word32 b (n - 20))

/-- The body of the chunk loop (R86) over the message's chunk `k`. -/
def chunkAt32 (b : Nat → U8) (r : Regs32) (k : Nat) : Regs32 :=
  chunk32 r (word32 b (20 * k)) (word32 b (20 * k + 4)) (word32 b (20 * k + 8)) (word32 b (20 * k + 12))
    (word32 b (20 * k + 16))

section hash32Values

variable {v : View} {b : Nat → U8}

theorem digest32_eq_len0To4 (h : v.n ≤ 4) : digest32 v = hash32Len0To4 v := if_pos h

theorem digest32_eq_len5To12 (h5 : 5 ≤ v.n) (h12 : v.n ≤ 12) : digest32 v = hash32Len5To12 v := by
  rw [digest32, if_neg (by omega), if_pos h12]

theorem digest32_eq_len13To24 (h13 : 13 ≤ v.n) (h24 : v.n ≤ 24) : digest32 v = hash32Len13To24 v := by
  rw [digest32, if_neg (by omega), if_neg (by omega), if_pos h24]

theorem digest32_eq_long (h25 : 25 ≤ v.n) : digest32 v = hash32Long v := by
  rw [digest32, if_neg (by omega), if_neg (by omega), if_neg (by omega)]

/-- The third offset of the 5..12 bucket (R83): 0 below 8 bytes and 4 from there on. -/
theorem shiftRight_and_four {n : Nat} (h5 : 5 ≤ n) (h12 : n ≤ 12) : (n >>> 1) &&& 4 = if n < 8 then 0 else 4 := by
  interval_cases n <;> rfl

variable (hv : v.Holds b)
include hv

theorem hash32Len0To4_ok : hash32Len0To4 v =
    let bc := (List.range v.n).foldl
      (fun (p : U32 × U32) i => (p.1 * C1 + (b i).signExtend 32, p.2 ^^^ (p.1 * C1 + (b i).signExtend 32))) (0#32, 9#32)
    .ok (fmix32 (mur bc.1 (mur v.n32 bc.2))) := by
  rw [hash32Len0To4, foldBytes32_ok hv v.n 0 _ _ (by omega), ← List.range_eq_range']
  rfl

theorem hash32Len5To12_ok (h5 : 5 ≤ v.n) (h12 : v.n ≤ 12) : hash32Len5To12 v =
    .ok (fmix32 (mur (9#32 + word32 b (if v.n < 8 then 0 else 4)) (mur (v.n32 * 5#32 + word32 b (v.n - 4))
      (mur (v.n32 + word32 b 0) (v.n32 * 5#32))))) := by
  have hthird : (if v.n < 8 then 0 else 4) + 4 ≤ v.n := by split <;> omega
  rw [hash32Len5To12, shiftRight_and_four h5 h12, View.fetch32_ok hv (by omega), View.fetch32_ok hv (by omega),
    View.fetch32_ok hv hthird]
  rfl

theorem hash32Len13To24_ok (h13 : 13 ≤ v.n) : hash32Len13To24 v =
    .ok (fmix32 ([v.n / 2 - 4, 4, v.n - 8, v.n / 2, 0, v.n - 4].foldl (fun h o => mur (word32 b o) h) v.n32)) := by
  rw [hash32Len13To24, Nat.shiftRight_one, View.fetch32_ok hv (by omega), View.fetch32_ok hv (by omega),
    View.fetch32_ok hv (by omega), View.fetch32_ok hv (by omega), View.fetch32_ok hv (by omega),
    View.fetch32_ok hv (by omega)]
  rfl

theorem hash32Tail_ok (h25 : 25 ≤ v.n) : hash32Tail v = .ok (tailAt32 b v.n v.n32) := by
  rw [hash32Tail, View.fetch32_ok hv (by omega), View.fetch32_ok hv (by omega), View.fetch32_ok hv (by omega),
    View.fetch32_ok hv (by omega), View.fetch32_ok hv (by omega)]
  rfl

theorem hash32Long_ok (h25 : 25 ≤ v.n) : hash32Long v =
    .ok (finish32 ((List.range ((v.n - 1) / 20)).foldl (chunkAt32 b) (tailAt32 b v.n v.n32))) := by
  rw [hash32Long, hash32Tail_ok hv h25, List.range_eq_range']
  exact congrArg (· >>= fun r => .ok (finish32 r)) (hash32Loop_ok hv ((v.n - 1) / 20) 0 _ (by omega))

end hash32Values

/-- Settles O12: the byte loop of the 0..4 bucket is the statement's fold over the offsets. -/
theorem hash32OfZeroToFourBytes : Obligations.Hash32OfZeroToFourBytes := by
  intro s b hmessage h4
  have hdigest := (digest32_eq_len0To4 h4).trans (hash32Len0To4_ok (State.view_holds hmessage))
  rw [State.view_n32] at hdigest
  exact execHash32_ok hmessage.1 hdigest

/-- Settles O13: the 5..12 bucket, its third word at 0 or at 4. -/
theorem hash32OfFiveToTwelveBytes : Obligations.Hash32OfFiveToTwelveBytes := by
  intro s b hmessage h5 h12
  have hdigest := (digest32_eq_len5To12 h5 h12).trans (hash32Len5To12_ok (State.view_holds hmessage) h5 h12)
  rw [State.view_n32] at hdigest
  exact execHash32_ok hmessage.1 hdigest

/-- Settles O14: the 13..24 bucket, its six words folded in the order of the rule. -/
theorem hash32OfThirteenToTwentyFourBytes : Obligations.Hash32OfThirteenToTwentyFourBytes := by
  intro s b hmessage h13 h24
  have hdigest := (digest32_eq_len13To24 h13 h24).trans (hash32Len13To24_ok (State.view_holds hmessage) h13)
  rw [State.view_n32] at hdigest
  exact execHash32_ok hmessage.1 hdigest

/-- The registers in the order of the statement of the long bucket. -/
def Regs32.triple (r : Regs32) : U32 × U32 × U32 := (r.h, r.g, r.f)

/-- Settles O15: the statement's registers are those of the model as a triple, from the tail fold on through every
chunk. -/
theorem hash32OfMoreThanTwentyFourBytes : Obligations.Hash32OfMoreThanTwentyFourBytes := by
  intro s b hmessage h25
  have hdigest := (digest32_eq_long h25).trans (hash32Long_ok (State.view_holds hmessage) h25)
  rw [State.view_n32] at hdigest
  intro n a st tail chunk r g f h h'
  have htail : tail = (tailAt32 b n s.len).triple := rfl
  have hchunk (q : Regs32) (k : Nat) : chunk q.triple k = (chunkAt32 b q k).triple := rfl
  have hr : r = Regs32.triple ((List.range ((n - 1) / 20)).foldl (chunkAt32 b) (tailAt32 b n s.len)) := by
    show (List.range ((n - 1) / 20)).foldl chunk tail = _
    rw [htail]
    exact List.foldl_hom Regs32.triple hchunk
  refine (execHash32_ok hmessage.1 hdigest).trans ?_
  clear_value r
  subst hr
  rfl

end Sys2Proof.Machine

/-! The 64-bit digests over a written message (42_hash64.md R90 to R100), bucket by bucket. -/

namespace Sys2Proof.Machine

/-- The weak hash (40_primitives.md R76) of the message's 32 bytes at `p`. -/
def weakAt (b : Nat → U8) (p : Nat) (x y : U64) : U64 × U64 :=
  weakHashLen32WithSeeds (word64 b p) (word64 b (p + 8)) (word64 b (p + 16)) (word64 b (p + 24)) x y

/-- The tail-anchored initialisation (R97) over the message's words. -/
def tailAt64 (b : Nat → U8) (n : Nat) (n64 : U64) : Regs64 :=
  let x := word64 b (n - 40)
  let y := word64 b (n - 16) + word64 b (n - 56)
  let z := hashLen16 (word64 b (n - 48) + n64) (word64 b (n - 24))
  { x := x * K1 + word64 b 0, y := y, z := z, v := weakAt b (n - 64) n64 z, w := weakAt b (n - 32) (y + K1) x }

/-- The body of the chunk loop (R98) over the message's chunk `k`. -/
def chunkAt64 (b : Nat → U8) (r : Regs64) (k : Nat) : Regs64 :=
  let pos := 64 * k
  let x := (ror64 (r.x + r.y + r.v.1 + word64 b (pos + 8)) 37 * K1) ^^^ r.w.2
  let y := ror64 (r.y + r.v.2 + word64 b (pos + 48)) 42 * K1 + r.v.1 + word64 b (pos + 40)
  let z := ror64 (r.z + r.w.1) 33 * K1
  { x := z
    y := y
    z := x
    v := weakAt b pos (r.v.2 * K1) (x + r.w.1)
    w := weakAt b (pos + 32) (z + r.w.2) (y + word64 b (pos + 16)) }

section hash64Values

variable {v : View} {b : Nat → U8}

theorem digest64_eq_len8To16 (h8 : 8 ≤ v.n) (h16 : v.n ≤ 16) : digest64 v = hash64Len8To16 v := by
  rw [digest64, if_pos h16, hash64Len0To16, if_pos h8]

theorem digest64_eq_len4To7 (h4 : 4 ≤ v.n) (h7 : v.n ≤ 7) : digest64 v = hash64Len4To7 v := by
  rw [digest64, if_pos (by omega), hash64Len0To16, if_neg (by omega), if_pos h4]

theorem digest64_eq_len1To3 (h1 : 1 ≤ v.n) (h3 : v.n ≤ 3) : digest64 v = hash64Len1To3 v := by
  rw [digest64, if_pos (by omega), hash64Len0To16, if_neg (by omega), if_neg (by omega), if_pos (show 0 < v.n from h1)]

theorem digest64_empty (h0 : v.n = 0) : digest64 v = .ok K2 := by
  rw [digest64, if_pos (by omega), hash64Len0To16, if_neg (by omega), if_neg (by omega), if_neg (by omega)]

theorem digest64_eq_len17To32 (h17 : 17 ≤ v.n) (h32 : v.n ≤ 32) : digest64 v = hash64Len17To32 v := by
  rw [digest64, if_neg (by omega), if_pos h32]

theorem digest64_eq_len33To64 (h33 : 33 ≤ v.n) (h64 : v.n ≤ 64) : digest64 v = hash64Len33To64 v := by
  rw [digest64, if_neg (by omega), if_neg (by omega), if_pos h64]

theorem digest64_eq_long (h65 : 65 ≤ v.n) : digest64 v = hash64Long v := by
  rw [digest64, if_neg (by omega), if_neg (by omega), if_neg (by omega)]

variable (hv : v.Holds b)
include hv

theorem hash64Len1To3_ok (h1 : 1 ≤ v.n) : hash64Len1To3 v =
    let y : U32 := (b 0).setWidth 32 + ((b (v.n / 2)).setWidth 32 <<< 8)
    let z : U32 := v.n32 + ((b (v.n - 1)).setWidth 32 <<< 2)
    .ok (shiftMix64 ((y.setWidth 64 * K2) ^^^ (z.setWidth 64 * K0)) * K2) := by
  rw [hash64Len1To3, Nat.shiftRight_one, View.byte_ok hv (by omega), View.byte_ok hv (by omega),
    View.byte_ok hv (by omega)]
  rfl

theorem hash64Len4To7_ok (h4 : 4 ≤ v.n) : hash64Len4To7 v =
    .ok (hashLen16WithMul (v.n64 + ((word32 b 0).setWidth 64 <<< 3)) ((word32 b (v.n - 4)).setWidth 64) v.mul64) := by
  rw [hash64Len4To7, View.fetch32_ok hv (by omega), View.fetch32_ok hv (by omega)]
  rfl

theorem hash64Len8To16_ok (h8 : 8 ≤ v.n) : hash64Len8To16 v =
    let x := word64 b 0 + K2
    let y := word64 b (v.n - 8)
    .ok (hashLen16WithMul (ror64 y 37 * v.mul64 + x) ((ror64 x 25 + y) * v.mul64) v.mul64) := by
  rw [hash64Len8To16, View.fetch64_ok hv (by omega), View.fetch64_ok hv (by omega)]
  rfl

theorem hash64Len17To32_ok (h17 : 17 ≤ v.n) : hash64Len17To32 v =
    let x := word64 b 0 * K1
    let y := word64 b 8
    let z := word64 b (v.n - 8) * v.mul64
    .ok (hashLen16WithMul (ror64 (x + y) 43 + ror64 z 30 + word64 b (v.n - 16) * K2)
      (x + ror64 (y + K2) 18 + z) v.mul64) := by
  rw [hash64Len17To32, View.fetch64_ok hv (by omega), View.fetch64_ok hv (by omega), View.fetch64_ok hv (by omega),
    View.fetch64_ok hv (by omega)]
  rfl

theorem hash64Len33To64_ok (h33 : 33 ≤ v.n) : hash64Len33To64 v =
    .ok (mix33To64 v.mul64 (word64 b 0) (word64 b 8) (word64 b 16) (word64 b 24) (word64 b (v.n - 24))
      (word64 b (v.n - 32)) (word64 b (v.n - 8)) (word64 b (v.n - 16))) := by
  rw [hash64Len33To64, View.fetch64_ok hv (by omega), View.fetch64_ok hv (by omega), View.fetch64_ok hv (by omega),
    View.fetch64_ok hv (by omega), View.fetch64_ok hv (by omega), View.fetch64_ok hv (by omega),
    View.fetch64_ok hv (by omega), View.fetch64_ok hv (by omega)]
  rfl

theorem hash64Tail_ok (h65 : 65 ≤ v.n) : hash64Tail v = .ok (tailAt64 b v.n v.n64) := by
  unfold hash64Tail
  simp only [View.weakHashAt_ok hv (show v.n - 64 + 32 ≤ v.n by omega),
    View.weakHashAt_ok hv (show v.n - 32 + 32 ≤ v.n by omega)]
  rw [View.fetch64_ok hv (by omega), View.fetch64_ok hv (by omega), View.fetch64_ok hv (by omega),
    View.fetch64_ok hv (by omega), View.fetch64_ok hv (by omega), View.fetch64_ok hv (by omega)]
  rfl

theorem chunk64_ok {k : Nat} (h : 64 * k + 64 ≤ v.n) (r : Regs64) : chunk64 v (64 * k) r = .ok (chunkAt64 b r k) := by
  unfold chunk64
  simp only [View.weakHashAt_ok hv (show 64 * k + 32 ≤ v.n by omega),
    View.weakHashAt_ok hv (show 64 * k + 32 + 32 ≤ v.n by omega)]
  rw [View.fetch64_ok hv (by omega), View.fetch64_ok hv (by omega), View.fetch64_ok hv (by omega),
    View.fetch64_ok hv (by omega)]
  rfl

theorem hash64Long_ok (h65 : 65 ≤ v.n) : hash64Long v =
    .ok (finish64 ((List.range ((v.n - 1) / 64)).foldl (chunkAt64 b) (tailAt64 b v.n v.n64))) := by
  have hloop := hash64Loop_ok (chunkAt64 b) (fun k r h => chunk64_ok hv h r) ((v.n - 1) / 64) 0
    (tailAt64 b v.n v.n64) (by omega)
  rw [hash64Long, hash64Tail_ok hv h65, List.range_eq_range']
  exact congrArg (· >>= fun r => .ok (finish64 r)) hloop

end hash64Values

theorem State.view_mul64 (s : State) : s.view.mul64 = K2 + s.len.setWidth 64 * 2#64 := by
  rw [View.mul64, State.view_n64]

/-- Settles O16: the empty message reads nothing; 1 to 3 bytes are read at the first, middle and last offset. -/
theorem hash64OfZeroToThreeBytes : Obligations.Hash64OfZeroToThreeBytes := by
  intro s b hmessage
  refine ⟨fun h0 => execHash64_ok hmessage.1 (digest64_empty h0), fun h1 h3 => ?_⟩
  have hdigest := (digest64_eq_len1To3 h1 h3).trans (hash64Len1To3_ok (State.view_holds hmessage) h1)
  rw [State.view_n32] at hdigest
  exact execHash64_ok hmessage.1 hdigest

/-- Settles O17: the two upper branches of the 0..16 bucket. -/
theorem hash64OfFourToSixteenBytes : Obligations.Hash64OfFourToSixteenBytes := by
  intro s b hmessage n n64 mul
  constructor
  · intro h4 h7
    have hdigest := (digest64_eq_len4To7 h4 h7).trans (hash64Len4To7_ok (State.view_holds hmessage) h4)
    rw [State.view_n64, State.view_mul64] at hdigest
    exact execHash64_ok hmessage.1 hdigest
  · intro h8 h16
    have hdigest := (digest64_eq_len8To16 h8 h16).trans (hash64Len8To16_ok (State.view_holds hmessage) h8)
    rw [State.view_mul64] at hdigest
    exact execHash64_ok hmessage.1 hdigest

/-- Settles O18: the 17..32 bucket, four words. -/
theorem hash64OfSeventeenToThirtyTwoBytes : Obligations.Hash64OfSeventeenToThirtyTwoBytes := by
  intro s b hmessage h17 h32
  have hdigest := (digest64_eq_len17To32 h17 h32).trans (hash64Len17To32_ok (State.view_holds hmessage) h17)
  rw [State.view_mul64] at hdigest
  exact execHash64_ok hmessage.1 hdigest

/-- Settles O19: the 33..64 bucket, eight words into `mix33To64`. -/
theorem hash64OfThirtyThreeToSixtyFourBytes : Obligations.Hash64OfThirtyThreeToSixtyFourBytes := by
  intro s b hmessage h33 h64
  have hdigest := (digest64_eq_len33To64 h33 h64).trans (hash64Len33To64_ok (State.view_holds hmessage) h33)
  rw [State.view_mul64] at hdigest
  exact execHash64_ok hmessage.1 hdigest

/-- Settles O20: the long bucket; the loop over the view is the fold of `chunkAt64` over the chunks. -/
theorem hash64OfMoreThanSixtyFourBytes : Obligations.Hash64OfMoreThanSixtyFourBytes := by
  intro s b hmessage h65
  have hdigest := (digest64_eq_long h65).trans (hash64Long_ok (State.view_holds hmessage) h65)
  rw [State.view_n64] at hdigest
  exact execHash64_ok hmessage.1 hdigest

end Sys2Proof.Machine

/-! Chained reseed (44_adapter.md R108): a feed digests the new message alone and combines it with the held value. -/

namespace Sys2Proof.Machine

/-! The digests of the three messages of the rule's own example, by the formulas of their buckets. -/

section rulesOwnExample

variable {v : View}

theorem digest64_hello (hn : v.n = 5) (hv : v.Holds fun i => [0x68#8, 0x65#8, 0x6c#8, 0x6c#8, 0x6f#8].getD i 0#8) :
    digest64 v = .ok 0xb48be5a931380ce8#64 := by
  rw [digest64_eq_len4To7 (by omega) (by omega), hash64Len4To7_ok hv (by omega), View.mul64, View.n64, hn]
  exact congrArg Except.ok (by decide)

theorem digest64_world (hn : v.n = 5) (hv : v.Holds fun i => [0x77#8, 0x6f#8, 0x72#8, 0x6c#8, 0x64#8].getD i 0#8) :
    digest64 v = .ok 0xe41a54435eb8b46e#64 := by
  rw [digest64_eq_len4To7 (by omega) (by omega), hash64Len4To7_ok hv (by omega), View.mul64, View.n64, hn]
  exact congrArg Except.ok (by decide)

theorem digest64_helloworld (hn : v.n = 10)
    (hv : v.Holds fun i => ([0x68#8, 0x65#8, 0x6c#8, 0x6c#8, 0x6f#8] ++ [0x77#8, 0x6f#8, 0x72#8, 0x6c#8, 0x64#8]).getD i
      0#8) :
    digest64 v = .ok 0x7ab4eee57f0f9b0b#64 := by
  rw [digest64_eq_len8To16 (by omega) (by omega), hash64Len8To16_ok hv (by omega), View.mul64, View.n64, hn]
  exact congrArg Except.ok (by decide)

theorem seedDigest_world_hello : seedDigest 0xe41a54435eb8b46e#64 0xb48be5a931380ce8#64 = 0xcbe465e68d6df126#64 := by
  decide

end rulesOwnExample

/-- Settles O25: each command of a chain answers by its own law, and the held value is the digest the feed before it
computed; on the rule's pair the two results are then two different numbers. -/
theorem chainedReseedNotConcatenation : Obligations.ChainedReseedNotConcatenation := by
  constructor
  · intro s b1 h1
    obtain ⟨d, hd⟩ := h1.computes (digest64_onlyUnwritten s.view)
    have hfeedNew := execAdFeed_ok (s := (s.setAd none).retire) h1.1 hd
    have hfeedSeed := execAdFeed_ok (s := (s.setAd (some s.seed)).retire) h1.1 hd
    refine ⟨_, _, execHash64_ok h1.1 hd, execHash64s_ok h1.1 hd,
      ⟨_, _, _, execAdNew_eq, hfeedNew, execAdFin_eq, rfl, fun m l b2 h2 => ?_⟩,
      ⟨_, _, _, execAdSeed_eq, hfeedSeed, execAdFin_eq, rfl⟩⟩
    obtain ⟨d', hd'⟩ := h2.computes (digest64_onlyUnwritten _)
    exact ⟨_, _, _, execHash64_ok h2.1 hd', execAdFeed_ok h2.1 hd', execAdFin_eq, rfl⟩
  · intro s m m' hello world hlen hhello hworld hboth
    have hd := digest64_hello (v := s.view) (by rw [State.view_n, hlen]; rfl) (State.view_holds hhello)
    have hd' := digest64_world (v := State.view { s with msg := m, len := 5#32 }) rfl (State.view_holds hworld)
    have hd'' := digest64_helloworld (v := State.view { s with msg := m', len := 10#32 }) rfl (State.view_holds hboth)
    have hfeed := execAdFeed_ok (s := (s.setAd none).retire) hhello.1 hd
    refine ⟨_, _, _, _, _, execAdNew_eq, hfeed, execAdFeed_ok hworld.1 hd', execAdFin_eq, execHash64_ok hboth.1 hd'',
      seedDigest_world_hello, rfl, fun hsame => ?_⟩
    have hnumbers : 0xcbe465e68d6df126#64 = 0x7ab4eee57f0f9b0b#64 := seedDigest_world_hello.symm.trans hsame
    exact absurd hnumbers (by decide)

end Sys2Proof.Machine
